-- ==== Sys2Proof/Word.lean ====
section
/-! DEFINITION. The word types of the RISC-4 CORE (R5, R7 of 00_scope.md). -/

namespace Sys2Proof

/-- Four bits: a general register, a memory cell, an ALU operand (R5: XLEN; R9: nibble). -/
abbrev Nibble := BitVec 4

/-- The instruction as fetched (R5: ILEN; R9: raw word). -/
abbrev Word16 := BitVec 16

/-- A nibble address of the instruction space, the width of `pc` (R5: PCLEN). -/
abbrev PcAddr := BitVec 12

/-- An address of the data space (R5: DALEN). -/
abbrev DataAddr := BitVec 8

/-- The number of a general register. Its addition wraps modulo 16, as the index arithmetic of R120 and R142 does (D13). -/
abbrev RegIdx := Fin 16

end Sys2Proof
end

