-- ==== Sys2Proof/Syntax.lean ====
section
/-! DEFINITION. The instructions: one constructor for each row of the opcode table, with the fields of the decoded record of
R65 (30_encoding.md). -/

namespace Sys2Proof

/-- A decoded instruction. Register fields are register numbers; immediates and offsets are the raw fields of the word,
which the meanings extend (R59, R60). J and JAL keep the link bit of the raw word beside the whole 12-bit target (R58, R65). -/
inductive Instr where
  /-- `ADD rd, rs, rt`, format R (R100). -/
  | add (rd rs rt : RegIdx)
  /-- `SUB rd, rs, rt`, format R (R101). -/
  | sub (rd rs rt : RegIdx)
  /-- `AND rd, rs, rt`, format R (R102). -/
  | and (rd rs rt : RegIdx)
  /-- `OR rd, rs, rt`, format R (R103). -/
  | or (rd rs rt : RegIdx)
  /-- `XOR rd, rs, rt`, format R (R104). -/
  | xor (rd rs rt : RegIdx)
  /-- `SLT rd, rs, rt`, format R (R105). -/
  | slt (rd rs rt : RegIdx)
  /-- `ORI rd, rs, #imm4`, format I (R110). -/
  | ori (rd rs : RegIdx) (imm4 : Nibble)
  /-- `LW rs, off4(base)`, format M; `rs` is the destination (R122). -/
  | lw (rs base : RegIdx) (off4 : Nibble)
  /-- `SW rs, off4(base)`, format M; `rs` is the source of the data (R123). -/
  | sw (rs base : RegIdx) (off4 : Nibble)
  /-- `BEQZ rs, off8`, format B (R131). -/
  | beqz (rs : RegIdx) (off8 : BitVec 8)
  /-- `BNEZ rs, off8`, format B (R132). -/
  | bnez (rs : RegIdx) (off8 : BitVec 8)
  /-- `BLTZ rs, off8`, format B (R133). -/
  | bltz (rs : RegIdx) (off8 : BitVec 8)
  /-- `BGEZ rs, off8`, format B (R134). -/
  | bgez (rs : RegIdx) (off8 : BitVec 8)
  /-- `J target12`, format J; the link bit is 0 (R140). -/
  | j (link : Bool) (target12 : BitVec 12)
  /-- `JAL target12`, format J; the link bit is 1 (R141). -/
  | jal (link : Bool) (target12 : BitVec 12)
  /-- `ADC rd, rs`, format RX (R115). -/
  | adc (rd rs : RegIdx)
  /-- `SBB rd, rs`, format RX (R116). -/
  | sbb (rd rs : RegIdx)
  /-- `JR rs`, format RX (R142); the bits 11:8 of its word are ignored (R67). -/
  | jr (rs : RegIdx)
  /-- `HALT`, format RX (R150); the bits 11:4 of its word are ignored (R67). -/
  | halt
  deriving DecidableEq, Repr

end Sys2Proof
end

