-- ==== Sys2Proof/WellFormed.lean ====
section
/-! DEFINITION. When a decoded record is one the encoding can carry (R58, R65 of 30_encoding.md). -/

namespace Sys2Proof

/-- The checks on a decoded record. Every field but one has exactly the width of its bits in the word, so any value of it
is well formed. The link bit a J or JAL record carries must be the one of its opcode: J and JAL "differ in that one bit"
(R58), `J {link = w[12] = 0}`, `JAL {link = w[12] = 1}` (R65). -/
def Instr.WellFormed : Instr → Bool
  | .add _ _ _ => true
  | .sub _ _ _ => true
  | .and _ _ _ => true
  | .or _ _ _ => true
  | .xor _ _ _ => true
  | .slt _ _ _ => true
  | .ori _ _ _ => true
  | .lw _ _ _ => true
  | .sw _ _ _ => true
  | .beqz _ _ => true
  | .bnez _ _ => true
  | .bltz _ _ => true
  | .bgez _ _ => true
  | .j link _ => !link
  | .jal link _ => link
  | .adc _ _ => true
  | .sbb _ _ => true
  | .jr _ => true
  | .halt => true

end Sys2Proof
end

