-- ==== Sys2Proof/Decode.lean ====
section
/-! DEFINITION. The instruction decoder, total on the 65536 words, and the encoder (30_encoding.md), with the opcode table
as masks and patterns. -/

namespace Sys2Proof

/-- Four nibbles in reading order as one word: the first is `w[15:12]` (R33, R51). -/
def wordOfNibbles (n3 n2 n1 n0 : Nibble) : Word16 := n3 ++ n2 ++ n1 ++ n0

/-- The nibbles of a word in the order they lie in `IMEM`, the most significant at the lowest address (R33, D11). -/
def nibblesOfWord (w : Word16) : List Nibble :=
  [w.extractLsb' 12 4, w.extractLsb' 8 4, w.extractLsb' 4 4, w.extractLsb' 0 4]

/-- The outputs of the field extractor (R51). -/
structure Fields where
  op : Nibble
  fa : Nibble
  fb : Nibble
  fc : Nibble
  off8 : BitVec 8
  target12 : BitVec 12
  link : Bool
  deriving DecidableEq, Repr

/-- The field extractor: it cuts every word the same way (R51, R52). -/
def extractFields (w : Word16) : Fields where
  op := w.extractLsb' 12 4
  fa := w.extractLsb' 8 4
  fb := w.extractLsb' 4 4
  fc := w.extractLsb' 0 4
  off8 := w.extractLsb' 0 8
  target12 := w.extractLsb' 0 12
  link := w.getLsbD 12

/-- What the decoder gives: an instruction record, or the explicit variant for an illegal word (R65). -/
inductive Decoded where
  | legal (i : Instr)
  | illegal (w : Word16)
  deriving DecidableEq, Repr

/-- The register number a 4-bit field names. -/
def regOf (n : Nibble) : RegIdx := n.toFin

/-- The 4-bit field that names a register. -/
def fieldOf (r : RegIdx) : Nibble := BitVec.ofFin r

/-- The extended group, selected by `funct` (R63); the other functs are illegal (R66). -/
def decodeExtended (w : Word16) (f : Fields) : Decoded :=
  match f.fc.toNat with
  | 1 => .legal (.adc (regOf f.fa) (regOf f.fb))
  | 2 => .legal (.sbb (regOf f.fa) (regOf f.fb))
  | 3 => .legal (.jr (regOf f.fb))
  | 4 => .legal .halt
  | _ => .illegal w

/-- The decoder (R65), a function of the word alone. All 16 primary opcodes are assigned (R62); the last arm is 0xF. -/
def decode (w : Word16) : Decoded :=
  let f := extractFields w
  match f.op.toNat with
  | 0x0 => decodeExtended w f
  | 0x1 => .legal (.add (regOf f.fa) (regOf f.fb) (regOf f.fc))
  | 0x2 => .legal (.sub (regOf f.fa) (regOf f.fb) (regOf f.fc))
  | 0x3 => .legal (.and (regOf f.fa) (regOf f.fb) (regOf f.fc))
  | 0x4 => .legal (.or (regOf f.fa) (regOf f.fb) (regOf f.fc))
  | 0x5 => .legal (.xor (regOf f.fa) (regOf f.fb) (regOf f.fc))
  | 0x6 => .legal (.slt (regOf f.fa) (regOf f.fb) (regOf f.fc))
  | 0x7 => .legal (.ori (regOf f.fa) (regOf f.fb) f.fc)
  | 0x8 => .legal (.lw (regOf f.fa) (regOf f.fb) f.fc)
  | 0x9 => .legal (.sw (regOf f.fa) (regOf f.fb) f.fc)
  | 0xA => .legal (.beqz (regOf f.fa) f.off8)
  | 0xB => .legal (.bnez (regOf f.fa) f.off8)
  | 0xC => .legal (.bltz (regOf f.fa) f.off8)
  | 0xD => .legal (.bgez (regOf f.fa) f.off8)
  | 0xE => .legal (.j f.link f.target12)
  | _ => .legal (.jal f.link f.target12)

/-- The J-format word `0b111 : link : target12` (R58). -/
def encodeJump (link : Bool) (target12 : BitVec 12) : Word16 := 0b111#3 ++ BitVec.ofBool link ++ target12

/-- The B-format word `op : rs : off8` (R57). -/
def encodeBranch (op : Nibble) (rs : RegIdx) (off8 : BitVec 8) : Word16 := op ++ fieldOf rs ++ off8

/-- The encoder, every unused field 0 (R76). -/
def encode : Instr → Word16
  | .add rd rs rt => wordOfNibbles 0x1 (fieldOf rd) (fieldOf rs) (fieldOf rt)
  | .sub rd rs rt => wordOfNibbles 0x2 (fieldOf rd) (fieldOf rs) (fieldOf rt)
  | .and rd rs rt => wordOfNibbles 0x3 (fieldOf rd) (fieldOf rs) (fieldOf rt)
  | .or rd rs rt => wordOfNibbles 0x4 (fieldOf rd) (fieldOf rs) (fieldOf rt)
  | .xor rd rs rt => wordOfNibbles 0x5 (fieldOf rd) (fieldOf rs) (fieldOf rt)
  | .slt rd rs rt => wordOfNibbles 0x6 (fieldOf rd) (fieldOf rs) (fieldOf rt)
  | .ori rd rs imm4 => wordOfNibbles 0x7 (fieldOf rd) (fieldOf rs) imm4
  | .lw rs base off4 => wordOfNibbles 0x8 (fieldOf rs) (fieldOf base) off4
  | .sw rs base off4 => wordOfNibbles 0x9 (fieldOf rs) (fieldOf base) off4
  | .beqz rs off8 => encodeBranch 0xA rs off8
  | .bnez rs off8 => encodeBranch 0xB rs off8
  | .bltz rs off8 => encodeBranch 0xC rs off8
  | .bgez rs off8 => encodeBranch 0xD rs off8
  | .j link target12 => encodeJump link target12
  | .jal link target12 => encodeJump link target12
  | .adc rd rs => wordOfNibbles 0x0 (fieldOf rd) (fieldOf rs) 0x1
  | .sbb rd rs => wordOfNibbles 0x0 (fieldOf rd) (fieldOf rs) 0x2
  | .jr rs => wordOfNibbles 0x0 0x0 (fieldOf rs) 0x3
  | .halt => wordOfNibbles 0x0 0x0 0x0 0x4

/-- The bits of an instruction's word that the decoder does not read (R67): bits 11:8 of JR, bits 11:4 of HALT. Bit 11 of JAL
is part of the decoded target and is dropped by the meaning (R61). -/
def ignoredBits : Instr → Word16
  | .jr _ => 0x0F00
  | .halt => 0x0FF0
  | .add _ _ _ => 0
  | .sub _ _ _ => 0
  | .and _ _ _ => 0
  | .or _ _ _ => 0
  | .xor _ _ _ => 0
  | .slt _ _ _ => 0
  | .ori _ _ _ => 0
  | .lw _ _ _ => 0
  | .sw _ _ _ => 0
  | .beqz _ _ => 0
  | .bnez _ _ => 0
  | .bltz _ _ => 0
  | .bgez _ _ => 0
  | .j _ _ => 0
  | .jal _ _ => 0
  | .adc _ _ => 0
  | .sbb _ _ => 0

/-- One row of the opcode table: a word is the row's instruction exactly when `w &&& mask = pattern`. -/
structure OpcodeRow where
  mnemonic : String
  mask : Word16
  pattern : Word16
  deriving DecidableEq, Repr

/-- The row of the opcode table an instruction belongs to (R62, R63). -/
def tableRow : Instr → OpcodeRow
  | .add _ _ _ => ⟨"ADD", 0xF000, 0x1000⟩
  | .sub _ _ _ => ⟨"SUB", 0xF000, 0x2000⟩
  | .and _ _ _ => ⟨"AND", 0xF000, 0x3000⟩
  | .or _ _ _ => ⟨"OR", 0xF000, 0x4000⟩
  | .xor _ _ _ => ⟨"XOR", 0xF000, 0x5000⟩
  | .slt _ _ _ => ⟨"SLT", 0xF000, 0x6000⟩
  | .ori _ _ _ => ⟨"ORI", 0xF000, 0x7000⟩
  | .lw _ _ _ => ⟨"LW", 0xF000, 0x8000⟩
  | .sw _ _ _ => ⟨"SW", 0xF000, 0x9000⟩
  | .beqz _ _ => ⟨"BEQZ", 0xF000, 0xA000⟩
  | .bnez _ _ => ⟨"BNEZ", 0xF000, 0xB000⟩
  | .bltz _ _ => ⟨"BLTZ", 0xF000, 0xC000⟩
  | .bgez _ _ => ⟨"BGEZ", 0xF000, 0xD000⟩
  | .j _ _ => ⟨"J", 0xF000, 0xE000⟩
  | .jal _ _ => ⟨"JAL", 0xF000, 0xF000⟩
  | .adc _ _ => ⟨"ADC", 0xF00F, 0x0001⟩
  | .sbb _ _ => ⟨"SBB", 0xF00F, 0x0002⟩
  | .jr _ => ⟨"JR", 0xF00F, 0x0003⟩
  | .halt => ⟨"HALT", 0xF00F, 0x0004⟩

/-- Whether a word is illegal (R66), as the decoder sees it. -/
def isIllegal (w : Word16) : Bool :=
  match decode w with
  | .legal _ => false
  | .illegal _ => true

/-- The word whose `nbits` low bits are those of `w` and whose other bits are 0. -/
def tableWord (nbits w : Nat) : Word16 := BitVec.ofNat 16 (w % 2 ^ nbits)

/-- The decoder's input from four nibbles in storage order; any other number of nibbles is no instruction (R33, R50). -/
def decodeNibbles : List Nibble → Option Instr
  | [n3, n2, n1, n0] =>
    match decode (wordOfNibbles n3 n2 n1 n0) with
    | .legal i => some i
    | .illegal _ => none
  | _ => none

/-- The instruction the decoder reads from a word of the opcode table, laid out as `IMEM` stores it (R33). -/
def decodeTableWord (nbits w : Nat) : Option Instr := decodeNibbles (nibblesOfWord (tableWord nbits w))

end Sys2Proof
end

