-- ==== Sys2Proof/Config.lean ====
section
/-! DEFINITION. The fixed parameters of this hardware (R5 of 00_scope.md). The spec leaves no value of a running machine
open, so there is no free value here. -/

namespace Sys2Proof.Config

/-- The fetch increment in nibbles (R5: INSTR_NIBBLES). -/
def instrNibbles : Nat := 4

/-- The number of cells of the instruction space (R5: IMEM_SIZE, R31). -/
def imemSize : Nat := 4096

/-- The number of cells of the data space (R5: address_mask 0xFF, R32). -/
def dmemSize : Nat := 256

/-- The default of the launch argument `entry_pc` (R6, D25). -/
def defaultEntryPc : PcAddr := 0

/-- The mask JAL puts on its target (R61, R141). -/
def jalTargetMask : PcAddr := 0x7FF

/-- The registers of the link triple, the one that holds address bits 11:8 first (R13, D7). -/
def linkHigh : RegIdx := 13

/-- The middle register of the link triple, address bits 7:4 (R13, D7). -/
def linkMid : RegIdx := 14

/-- The last register of the link triple, address bits 3:0 (R13, D7). -/
def linkLow : RegIdx := 15

/-- What a cell reads as that a memory does not list. DESIGN CHOICE, unsafe: a memory is the finite list of its cells that
differ from this value; the spec has the launch give every cell a value (R182, D20). See log entry 1. -/
def unlistedCell : Nibble := 0

end Sys2Proof.Config
end

