-- ==== Sys2Proof/Machine/State.lean ====
section
/-! DEFINITION. The architectural state of the CORE (R10 of 10_state.md), the reasons a step or a launch can stop, and the
state after reset. -/

namespace Sys2Proof.Machine

/-- `RUN`, the state of the fetch-decode-execute machine (R18). -/
inductive RunState where
  | running
  | halted
  deriving DecidableEq, Repr

/-- The kinds of fault a step can record: one member (R161). -/
inductive FaultKind where
  /-- The word fetched at `pc` decodes to the illegal variant (R161). -/
  | illegalInstruction
  deriving DecidableEq, Repr

/-- A memory: its cells that do not read as `Config.unlistedCell`, in rising order of address. The cells of this machine are
4 bits wide (R31, R32): a cell's value is the low nibble of the byte, and the high nibble is 0 in the canonical form. -/
abbrev Memory := List Host.Cell

/-- The architectural state, "exactly this tuple; nothing else persists from one step to the next" (R10). -/
structure State where
  /-- `x[0..15]`, the register file (R11). -/
  regs : Vector Nibble 16
  /-- `pc`, the nibble address of the instruction being executed (R14). -/
  pc : PcAddr
  /-- `C`, the carry flag (R16). -/
  c : Bool
  /-- `Z`, the zero flag (R16). -/
  z : Bool
  /-- `RUN` (R18). -/
  run : RunState
  /-- `FAULT`, why the machine halted; `none` is the spec's `None` (R19). -/
  fault : Option FaultKind
  /-- `DMEM[0..255]`, the data space (R32). -/
  dmem : Memory
  /-- `IMEM[0..4095]`, the instruction space (R31). -/
  imem : Memory
  deriving DecidableEq, Repr

/-- The reasons a step could stop outside the architecture. The illegal-instruction fault is not one of them: it is taken
as a next state, since the spec describes the state it leaves (R161; log entry 5). -/
inductive Fault where
  /-- The AddressFault of the source's error taxonomy, "never raised as a hard error; all address arithmetic wraps via
  masking, by design" (R38, R162). No definition of this model raises it. Safe. -/
  | addressFault
  deriving DecidableEq, Repr

/-- The reasons something is given no meaning. -/
inductive Refusal where
  /-- An instruction rejected by name because it has no meaning yet. Raised by an arm of `exec` only; no arm does. Safe. -/
  | notModelled (mnemonic : String)
  /-- PreconditionViolation: the launch arguments lie outside the address range. Raised by the launch (`launchImage`) and
  never by a step (R163, R183, D29). Safe. -/
  | preconditionViolation
  deriving DecidableEq, Repr

/-- The machine right after reset: Running, every register and flag 0, no fault (R24, R180), with the default entry point
(log entry 3) and both memories reading as `Config.unlistedCell` everywhere (log entry 1). -/
def State.reset : State where
  regs := Vector.replicate 16 0
  pc := Config.defaultEntryPc
  c := false
  z := false
  run := .running
  fault := none
  dmem := []
  imem := []

end Sys2Proof.Machine
end

