-- ==== Sys2Proof/Machine/Ops.lean ====
section
/-! DEFINITION. The named operations over memory, registers, flags, `pc` and the run state, and the taking of the one
fault. There is no return from it (R166). -/

namespace Sys2Proof.Machine

/-! ## Memory cells -/

/-- The value of cell `a`: the listed one, or `Config.unlistedCell`. -/
def readCell : Memory → Nat → Nibble
  | [], _ => Config.unlistedCell
  | (k, b) :: rest, a => if k = a then b.setWidth 4 else readCell rest a

/-- A memory without any entry for cell `a`. -/
def eraseCell (m : Memory) (a : Nat) : Memory := m.filter fun e => e.1 != a

/-- An entry for cell `a` put in before the first entry of a higher address. -/
def insertCell : Memory → Nat → Nibble → Memory
  | [], a, v => [(a, v.setWidth 8)]
  | (k, b) :: rest, a, v =>
    if a < k then (a, v.setWidth 8) :: (k, b) :: rest else (k, b) :: insertCell rest a v

/-- Cell `a` becomes `v`. A cell that gets the value of unlisted cells is not listed, so the canonical form is kept. -/
def writeCell (m : Memory) (a : Nat) (v : Nibble) : Memory :=
  if v = Config.unlistedCell then eraseCell m a else insertCell (eraseCell m a) a v

/-- The canonical form of a memory of `size` cells: addresses strictly rising and below `size`, every listed value a nibble
and different from what an unlisted cell reads as. -/
def Memory.wf (size : Nat) (m : Memory) : Bool :=
  decide (m.Pairwise fun e f => e.1 < f.1) &&
    m.all fun e => decide (e.1 < size) && decide (e.2.toNat < 16) && (e.2.setWidth 4 != Config.unlistedCell)

/-- `MemRead(addr, 1)` (R36). -/
def memRead (s : State) (a : DataAddr) : Nibble := readCell s.dmem a.toNat

/-- `MemWrite(addr, 1, v)` (R37). -/
def memWrite (a : DataAddr) (v : Nibble) (s : State) : State := { s with dmem := writeCell s.dmem a.toNat v }

/-- `IFetch(a)`: four consecutive nibbles, the addresses modulo 4096, the first one the primary opcode (R33, R34). -/
def iFetch (imem : Memory) (a : PcAddr) : Word16 :=
  wordOfNibbles (readCell imem a.toNat) (readCell imem (a + 1).toNat) (readCell imem (a + 2).toNat)
    (readCell imem (a + 3).toNat)

/-! ## Registers -/

/-- A read of `x[i]`; `x[0]` reads 0 in every operand position (R11). -/
def readReg (s : State) (i : RegIdx) : Nibble := if i = 0 then 0 else s.regs[i]

/-- `x[i] <- v`: silently discarded when `i = 0` (R12). -/
def writeReg (i : RegIdx) (v : Nibble) (s : State) : State := if i = 0 then s else { s with regs := s.regs.set i v }

/-! ## Program counter, flags, run state -/

/-- The address after one instruction, modulo 4096 (R14, R84). -/
def nextPc (pc : PcAddr) : PcAddr := BitVec.ofNat 12 (pc.toNat + Config.instrNibbles)

/-- `pc <- t` (R14). -/
def writePc (t : PcAddr) (s : State) : State := { s with pc := t }

/-- The default advance `pc <- pc + 4` (R84). -/
def advancePc (s : State) : State := writePc (nextPc s.pc) s

/-- `C <- c; Z <- z` (R16). -/
def writeFlags (c z : Bool) (s : State) : State := { s with c := c, z := z }

/-- `RUN <- Halted` with no fault (R150). -/
def haltRun (s : State) : State := { s with run := .halted }

/-- Taking the illegal-instruction fault: `RUN <- Halted`, `FAULT <- IllegalInstruction`, and no other change (R161). There is
no handler, vector, saved state or return (R160, R165, R166). -/
def raiseIllegal (s : State) : State := { s with run := .halted, fault := some .illegalInstruction }

/-- Reset of the CORE's own registers; "reset itself writes no cell" of either memory (R24, R180). -/
def resetCore (entry : PcAddr) (s : State) : State :=
  { s with regs := Vector.replicate 16 0, pc := entry, c := false, z := false, run := .running, fault := none }

end Sys2Proof.Machine
end

