-- ==== Sys2Proof/Machine/Operands.lean ====
section
/-! DEFINITION. The operand forms: sign extension, the base pair, the effective address, branch and jump targets, the
register triple. -/

namespace Sys2Proof.Machine

/-- `sext_4`, an integer in -8..7 (R8). -/
def sext4 (v : Nibble) : Int := if v.toNat < 8 then v.toNat else (v.toNat : Int) - 16

/-- `sext_8`, an integer in -128..127 (R8). -/
def sext8 (v : BitVec 8) : Int := if v.toNat < 128 then v.toNat else (v.toNat : Int) - 256

/-- `signed4`, a register value reinterpreted as two's complement (R8, R95). -/
def signed4 (v : Nibble) : Int := sext4 v

/-- The base pair: `x[base]` the high nibble, the next register, modulo 16, the low one (R120). -/
def baseAddress (s : State) (base : RegIdx) : DataAddr := readReg s base ++ readReg s (base + 1)

/-- The effective address: base address plus signed offset, masked to 8 bits (R121). -/
def effectiveAddress (s : State) (base : RegIdx) (off4 : Nibble) : DataAddr :=
  BitVec.ofInt 8 ((baseAddress s base).toNat + sext4 off4)

/-- The target of a taken branch: `(pc + 4 * sext_8(off8)) mod 4096`, from the branch's own address (R60, R130). -/
def branchTarget (pc : PcAddr) (off8 : BitVec 8) : PcAddr :=
  BitVec.ofInt 12 (pc.toNat + Config.instrNibbles * sext8 off8)

/-- The target JAL loads: bit 11 is dropped (R61, R141). -/
def jalTarget (target12 : BitVec 12) : PcAddr := target12 &&& Config.jalTargetMask

/-- Three consecutive registers, modulo 16, read as one 12-bit address, the first the high nibble (R142). -/
def registerTriple (s : State) (rs : RegIdx) : PcAddr := readReg s rs ++ readReg s (rs + 1) ++ readReg s (rs + 2)

/-- `LR`, the link triple, a view of registers 13, 14 and 15 (R13). -/
def linkTriple (s : State) : PcAddr :=
  readReg s Config.linkHigh ++ readReg s Config.linkMid ++ readReg s Config.linkLow

/-- JAL's three register writes of a return address (R13, R141). -/
def writeLink (ret : PcAddr) (s : State) : State :=
  writeReg Config.linkLow (ret.extractLsb' 0 4)
    (writeReg Config.linkMid (ret.extractLsb' 4 4) (writeReg Config.linkHigh (ret.extractLsb' 8 4) s))

end Sys2Proof.Machine
end

