-- ==== Sys2Proof/Machine/Flags.lean ====
section
/-! DEFINITION. Every flag computation, and the ALU with its flag outputs (R17 of 10_state.md, R91 to R95 of 40_step.md). -/

namespace Sys2Proof.Machine

/-- The zero bit: the 4-bit result is 0 (R17, R91). -/
def zeroBit (r : Nibble) : Bool := decide (r = 0)

/-- The carry of an addition: the unmasked sum exceeds 15 (R17, R92). -/
def carryOut (sum : Nat) : Bool := decide (sum > 15)

/-- The carry of a subtraction: the unmasked difference is negative, a borrow (R17, R93, D14). -/
def borrowOut (difference : Int) : Bool := decide (difference < 0)

/-- The ALU's function select (R91). -/
inductive AluFn where
  | add
  | sub
  | and
  | or
  | xor
  | slt
  deriving DecidableEq, Repr

/-- The ALU's outputs: result, carry out, zero (R91). -/
structure AluOut where
  r : Nibble
  c : Bool
  z : Bool
  deriving DecidableEq, Repr

/-- The unmasked value of an addition, 0..31 (R91, R92). -/
def wideAdd (a b : Nibble) (cin : Bool) : Nat := a.toNat + b.toNat + cin.toNat

/-- The unmasked value of a subtraction, -16..15 (R91, R93). -/
def wideSub (a b : Nibble) (cin : Bool) : Int := (a.toNat : Int) - b.toNat - cin.toNat

/-- The ALU, a pure function of two nibbles, a carry in and a function select (R91). -/
def alu (fn : AluFn) (a b : Nibble) (cin : Bool) : AluOut :=
  match fn with
  | .add => let r := BitVec.ofNat 4 (wideAdd a b cin); ⟨r, carryOut (wideAdd a b cin), zeroBit r⟩
  | .sub => let r := BitVec.ofInt 4 (wideSub a b cin); ⟨r, borrowOut (wideSub a b cin), zeroBit r⟩
  | .and => ⟨a &&& b, false, zeroBit (a &&& b)⟩
  | .or => ⟨a ||| b, false, zeroBit (a ||| b)⟩
  | .xor => ⟨a ^^^ b, false, zeroBit (a ^^^ b)⟩
  | .slt => let r : Nibble := if signed4 a < signed4 b then 1 else 0; ⟨r, false, zeroBit r⟩

/-- The commit of an ALU instruction: the result to the destination, both flags (also when the destination is register 0:
R17, R86, D26), the default `pc` advance. -/
def commitAlu (rd : RegIdx) (o : AluOut) (s : State) : State := advancePc (writeFlags o.c o.z (writeReg rd o.r s))

end Sys2Proof.Machine
end

