-- ==== Sys2Proof/Machine/AluExtended.lean ====
section
/-! DEFINITION. The destructive extended ALU instructions (43_alu_extended.md). -/

namespace Sys2Proof.Machine

/-- ADC rd, rs: the old `x[rd]` is the first operand and `C` the carry in (R83, R115). -/
def execAdc (rd rs : RegIdx) (s : State) : Host.Outcome State Fault Refusal :=
  .next (commitAlu rd (alu .add (readReg s rd) (readReg s rs) s.c) s)

/-- SBB rd, rs: the old `x[rd]` is the left operand and `C` the borrow in (R83, R116). -/
def execSbb (rd rs : RegIdx) (s : State) : Host.Outcome State Fault Refusal :=
  .next (commitAlu rd (alu .sub (readReg s rd) (readReg s rs) s.c) s)

end Sys2Proof.Machine
end

