-- ==== Sys2Proof/Machine/AluImmediate.lean ====
section
/-! DEFINITION. The immediate ALU instruction (42_alu_immediate.md). -/

namespace Sys2Proof.Machine

/-- ORI rd, rs, #imm4: the immediate is used as it stands, four bits (R59, R110, D4). -/
def execOri (rd rs : RegIdx) (imm4 : Nibble) (s : State) : Host.Outcome State Fault Refusal :=
  .next (commitAlu rd (alu .or (readReg s rs) imm4 false) s)

end Sys2Proof.Machine
end

