-- ==== Sys2Proof/Machine/AluRegister.lean ====
section
/-! DEFINITION. The register-register ALU instructions (41_alu_register.md). -/

namespace Sys2Proof.Machine

/-- ADD rd, rs, rt (R100). -/
def execAdd (rd rs rt : RegIdx) (s : State) : Host.Outcome State Fault Refusal :=
  .next (commitAlu rd (alu .add (readReg s rs) (readReg s rt) false) s)

/-- SUB rd, rs, rt: `rs` is the left operand (R101, D22). -/
def execSub (rd rs rt : RegIdx) (s : State) : Host.Outcome State Fault Refusal :=
  .next (commitAlu rd (alu .sub (readReg s rs) (readReg s rt) false) s)

/-- AND rd, rs, rt (R102). -/
def execAnd (rd rs rt : RegIdx) (s : State) : Host.Outcome State Fault Refusal :=
  .next (commitAlu rd (alu .and (readReg s rs) (readReg s rt) false) s)

/-- OR rd, rs, rt (R103). -/
def execOr (rd rs rt : RegIdx) (s : State) : Host.Outcome State Fault Refusal :=
  .next (commitAlu rd (alu .or (readReg s rs) (readReg s rt) false) s)

/-- XOR rd, rs, rt (R104). -/
def execXor (rd rs rt : RegIdx) (s : State) : Host.Outcome State Fault Refusal :=
  .next (commitAlu rd (alu .xor (readReg s rs) (readReg s rt) false) s)

/-- SLT rd, rs, rt: `rs` is the left operand, signed (R105, D15, D22). -/
def execSlt (rd rs rt : RegIdx) (s : State) : Host.Outcome State Fault Refusal :=
  .next (commitAlu rd (alu .slt (readReg s rs) (readReg s rt) false) s)

end Sys2Proof.Machine
end

