-- ==== Sys2Proof/Machine/Branch.lean ====
section
/-! DEFINITION. The conditional branches (45_branch.md). A branch writes `pc` and nothing else (R130, D16). -/

namespace Sys2Proof.Machine

/-- The common branch rule (R130). -/
def branchIf (taken : Bool) (off8 : BitVec 8) (s : State) : State :=
  if taken then writePc (branchTarget s.pc off8) s else advancePc s

/-- BEQZ rs, off8: taken when `x[rs] = 0` (R131). -/
def execBeqz (rs : RegIdx) (off8 : BitVec 8) (s : State) : Host.Outcome State Fault Refusal :=
  .next (branchIf (decide (readReg s rs = 0)) off8 s)

/-- BNEZ rs, off8: taken when `x[rs] != 0` (R132). -/
def execBnez (rs : RegIdx) (off8 : BitVec 8) (s : State) : Host.Outcome State Fault Refusal :=
  .next (branchIf (decide (readReg s rs ≠ 0)) off8 s)

/-- BLTZ rs, off8: taken when `signed4(x[rs]) < 0` (R95, R133). -/
def execBltz (rs : RegIdx) (off8 : BitVec 8) (s : State) : Host.Outcome State Fault Refusal :=
  .next (branchIf (decide (signed4 (readReg s rs) < 0)) off8 s)

/-- BGEZ rs, off8: taken when `signed4(x[rs]) >= 0` (R95, R134). -/
def execBgez (rs : RegIdx) (off8 : BitVec 8) (s : State) : Host.Outcome State Fault Refusal :=
  .next (branchIf (decide (signed4 (readReg s rs) ≥ 0)) off8 s)

end Sys2Proof.Machine
end

