-- ==== Sys2Proof/Machine/Jump.lean ====
section
/-! DEFINITION. Jump, call and return (46_jump.md). None of them writes a flag or memory (D16). Whether a J-format word
links is settled by bit 12 of the word at decode (R58, R143), so the meanings do not look at the link bit of the record again;
for a well-formed record it says the same as the constructor. -/

namespace Sys2Proof.Machine

/-- J target12: the absolute target, not rescaled, all 12 bits (R61, R140). -/
def execJ (_link : Bool) (target12 : BitVec 12) (s : State) : Host.Outcome State Fault Refusal :=
  .next (writePc target12 s)

/-- JAL target12: the return address `pc + 4` to the link triple, `pc` to the target without bit 11 (R141). -/
def execJal (_link : Bool) (target12 : BitVec 12) (s : State) : Host.Outcome State Fault Refusal :=
  .next (writePc (jalTarget target12) (writeLink (nextPc s.pc) s))

/-- JR rs: `pc` from three consecutive registers, all 12 bits (R142). -/
def execJr (rs : RegIdx) (s : State) : Host.Outcome State Fault Refusal :=
  .next (writePc (registerTriple s rs) s)

end Sys2Proof.Machine
end

