-- ==== Sys2Proof/Machine/LoadStore.lean ====
section
/-! DEFINITION. The load and the store (44_load_store.md). Neither writes a flag (D16) or a base register. -/

namespace Sys2Proof.Machine

/-- LW rs, off4(base): the address is formed from the old registers, then `x[rs]` is written (R83, R122). -/
def execLw (rs base : RegIdx) (off4 : Nibble) (s : State) : Host.Outcome State Fault Refusal :=
  .next (advancePc (writeReg rs (memRead s (effectiveAddress s base off4)) s))

/-- SW rs, off4(base): the data comes from the M format's own data field (R56, R123). -/
def execSw (rs base : RegIdx) (off4 : Nibble) (s : State) : Host.Outcome State Fault Refusal :=
  .next (advancePc (memWrite (effectiveAddress s base off4) (readReg s rs) s))

end Sys2Proof.Machine
end

