-- ==== Sys2Proof/Machine/System.lean ====
section
/-! DEFINITION. The system instruction (47_system.md). -/

namespace Sys2Proof.Machine

/-- HALT: `RUN <- Halted`; `pc` stays at the HALT and nothing else changes (R150, D17). -/
def execHalt (s : State) : Host.Outcome State Fault Refusal := .next (haltRun s)

end Sys2Proof.Machine
end

