-- ==== Sys2Proof/Machine/Dispatch.lean ====
section
/-! DEFINITION. The execute phase: one arm per instruction (R80, R83 of 40_step.md). -/

namespace Sys2Proof.Machine

def exec (i : Instr) (s : State) : Host.Outcome State Fault Refusal :=
  match i with
  | .add rd rs rt => Sys2Proof.Machine.execAdd rd rs rt s
  | .sub rd rs rt => Sys2Proof.Machine.execSub rd rs rt s
  | .and rd rs rt => Sys2Proof.Machine.execAnd rd rs rt s
  | .or rd rs rt => Sys2Proof.Machine.execOr rd rs rt s
  | .xor rd rs rt => Sys2Proof.Machine.execXor rd rs rt s
  | .slt rd rs rt => Sys2Proof.Machine.execSlt rd rs rt s
  | .ori rd rs imm4 => Sys2Proof.Machine.execOri rd rs imm4 s
  | .lw rs base off4 => Sys2Proof.Machine.execLw rs base off4 s
  | .sw rs base off4 => Sys2Proof.Machine.execSw rs base off4 s
  | .beqz rs off8 => Sys2Proof.Machine.execBeqz rs off8 s
  | .bnez rs off8 => Sys2Proof.Machine.execBnez rs off8 s
  | .bltz rs off8 => Sys2Proof.Machine.execBltz rs off8 s
  | .bgez rs off8 => Sys2Proof.Machine.execBgez rs off8 s
  | .j link target12 => Sys2Proof.Machine.execJ link target12 s
  | .jal link target12 => Sys2Proof.Machine.execJal link target12 s
  | .adc rd rs => Sys2Proof.Machine.execAdc rd rs s
  | .sbb rd rs => Sys2Proof.Machine.execSbb rd rs s
  | .jr rs => Sys2Proof.Machine.execJr rs s
  | .halt => Sys2Proof.Machine.execHalt s

end Sys2Proof.Machine
end

