-- ==== Sys2Proof/Machine/Engine.lean ====
section
/-! DEFINITION. The fetch-decode-execute step with its result, the run loop, and the fault report (40_step.md,
60_exceptions.md). -/

namespace Sys2Proof.Machine

/-- The result of a step, the source's `StepResult` (R80). -/
structure StepResult where
  halted : Bool
  fault : Option FaultKind
  deriving DecidableEq, Repr

/-- One step with its result, in the order fetch, legality check, execute (R80, R164). A halted machine fetches nothing and
changes nothing; an illegal word takes the fault; a legal one is executed. -/
def engineStep (s : State) : Host.Outcome (State × StepResult) Fault Refusal :=
  match s.run with
  | .halted => .next (s, ⟨true, s.fault⟩)
  | .running =>
    match decode (iFetch s.imem s.pc) with
    | .illegal _ => .next (raiseIllegal s, ⟨true, some .illegalInstruction⟩)
    | .legal i =>
      match exec i s with
      | .next s' => .next (s', ⟨decide (s'.run = .halted), none⟩)
      | .fault r => .fault r
      | .refused r => .refused r

/-- The state part of an outcome. -/
def dropResult : Host.Outcome (State × StepResult) Fault Refusal → Host.Outcome State Fault Refusal
  | .next (s, _) => .next s
  | .fault r => .fault r
  | .refused r => .refused r

/-- `run(max_steps)`: steps until a result says halted or the budget is spent, and the last result (R88). A spent budget leaves
the state as it is (R89, D18). With no step made there is no last result (log entry 8). -/
def runSteps : Nat → State → Host.Outcome (State × Option StepResult) Fault Refusal
  | 0, s => .next (s, none)
  | k + 1, s =>
    match engineStep s with
    | .fault r => .fault r
    | .refused r => .refused r
    | .next (s', r) =>
      if r.halted then .next (s', some r)
      else
        match runSteps k s' with
        | .next (s'', none) => .next (s'', some r)
        | .next (s'', some r') => .next (s'', some r')
        | .fault e => .fault e
        | .refused e => .refused e

/-- The "offending PC and raw word" of a faulted machine: the unchanged `pc` and `IFetch(pc)` (R19, R161). -/
def faultReport (s : State) : Option (PcAddr × Word16) :=
  match s.fault with
  | none => none
  | some .illegalInstruction => some (s.pc, iFetch s.imem s.pc)

end Sys2Proof.Machine
end

