-- ==== Sys2Proof/Machine/Launch.lean ====
section
/-! DEFINITION. Reset with its launch arguments, and the loader's placing of a program image (R35 of 20_memory.md, R180 to R183
of 70_reset_and_hazards.md). -/

namespace Sys2Proof.Machine

/-- A list of nibbles in consecutive cells from `a`, addresses modulo the 4096 cells of `IMEM`. -/
def placeNibbles : List Nibble → PcAddr → Memory → Memory
  | [], _, m => m
  | n :: ns, a, m => placeNibbles ns (a + 1) (writeCell m a.toNat n)

/-- One word at `a`, its most significant nibble at the lowest address (R33). -/
def placeWord (w : Word16) (a : PcAddr) (m : Memory) : Memory := placeNibbles (nibblesOfWord w) a m

/-- Word `i` of the image at `base + 4i` (R35). -/
def placeImage : List Word16 → PcAddr → Memory → Memory
  | [], _, m => m
  | w :: ws, a, m => placeImage ws (nextPc a) (placeWord w a m)

/-- `reset(imem_init, dmem_init, entry_pc)`: it may be applied in any state and always gives this result (R180). -/
def launch (imemInit dmemInit : Memory) (entry : PcAddr) (s : State) : State :=
  { resetCore entry s with imem := imemInit, dmem := dmemInit }

/-- Whether the launch arguments lie inside the address range: the entry point, and the whole image from its base (R183 item 3,
D29). -/
def launchInRange (image : List Word16) (base entry : Nat) : Bool :=
  decide (entry < Config.imemSize) && decide (base + Config.instrNibbles * image.length ≤ Config.imemSize)

/-- The environment's launch (R183): it builds `imem_init` from the image over `rest`, the content of the cells the image does
not cover (R35, R182), refuses arguments outside the address range, and resets. -/
def launchImage (image : List Word16) (base entry : Nat) (rest dmemInit : Memory) (s : State) :
    Host.Outcome State Fault Refusal :=
  if launchInRange image base entry && Memory.wf Config.imemSize rest && Memory.wf Config.dmemSize dmemInit then
    .next (launch (placeImage image (BitVec.ofNat 12 base) rest) dmemInit (BitVec.ofNat 12 entry) s)
  else .refused .preconditionViolation

end Sys2Proof.Machine
end

