-- ==== Sys2Proof/Machine/Step.lean ====
section
/-! DEFINITION. The one step of the machine, and the placing of an instruction where the step fetches. -/

namespace Sys2Proof.Machine

/-- The step: the state part of `engineStep` (R80). -/
def step (s : State) : Host.Outcome State Fault Refusal := dropResult (engineStep s)

/-- `s` with the instruction stored at `pc`, in a machine that fetches: a fetch needs `RUN = Running`, and a machine that is
Running has no fault (R19, R24). It stands for the environment's launch with that word in `imem_init` (log entry 4). -/
def State.withFetchWord (s : State) (nbits w : Nat) : State :=
  { s with imem := placeWord (tableWord nbits w) s.pc s.imem, run := .running, fault := none }

end Sys2Proof.Machine
end

