-- ==== Sys2Proof/Machine/Controls.lean ====
section
/-! DEFINITION. The hardware reading of the decoder: its outputs as control signals, and a datapath they drive (R69 of
30_encoding.md, R91 of 40_step.md). The table of R69 "is a summary of the instruction rules and adds nothing to them": this
file is a second form of the machine and `step` does not use it. -/

namespace Sys2Proof.Machine

/-- The ALU's second operand. -/
inductive AluSrc where
  | register (i : RegIdx)
  | immediate (imm4 : Nibble)
  deriving DecidableEq, Repr

/-- The carry into the ALU: the constant 0, or the flag `C`. The logical functions ignore it. -/
inductive CarrySel where
  | zero
  | flagC
  deriving DecidableEq, Repr

/-- The ALU's part of the control signals. -/
structure AluControl where
  fn : AluFn
  a : RegIdx
  b : AluSrc
  cin : CarrySel
  deriving DecidableEq, Repr

/-- The register write: none, the ALU result, the loaded cell, or the return address into registers 13, 14 and 15. -/
inductive RegWrite where
  | none
  | aluTo (rd : RegIdx)
  | loadTo (rs : RegIdx)
  | link
  deriving DecidableEq, Repr

/-- The access to `DMEM`, with the operands its address and data come from. -/
inductive DmemControl where
  | none
  | read (base : RegIdx) (off4 : Nibble)
  | write (base : RegIdx) (off4 : Nibble) (rs : RegIdx)
  deriving DecidableEq, Repr

/-- The test of a branch (R131 to R134). -/
inductive BranchCond where
  | eqz
  | nez
  | ltz
  | gez
  deriving DecidableEq, Repr

/-- The selection of the next `pc`. -/
inductive NextPcControl where
  | plus4
  | branch (cond : BranchCond) (rs : RegIdx) (off8 : BitVec 8)
  | target (target12 : BitVec 12)
  | maskedTarget (target12 : BitVec 12)
  | triple (rs : RegIdx)
  | hold
  deriving DecidableEq, Repr

/-- What happens to the run state. -/
inductive RunControl where
  | keep
  | halt
  | fault
  deriving DecidableEq, Repr

/-- The control signals of one instruction, a row of the table of R69. The flags are written exactly when the ALU is used. -/
structure Controls where
  alu : Option AluControl
  regWrite : RegWrite
  dmem : DmemControl
  nextPc : NextPcControl
  run : RunControl
  deriving DecidableEq, Repr

/-- A row of an ALU instruction: register write `rd`, flags C and Z, next `pc` +4. -/
def aluControls (fn : AluFn) (rd a : RegIdx) (b : AluSrc) (cin : CarrySel) : Controls :=
  ⟨some ⟨fn, a, b, cin⟩, .aluTo rd, .none, .plus4, .keep⟩

/-- A row that only chooses the next `pc`. -/
def pcControls (n : NextPcControl) : Controls := ⟨Option.none, .none, .none, n, .keep⟩

/-- The table of R69, a row for each instruction and one for an illegal word. -/
def controls : Decoded → Controls
  | .legal (.add rd rs rt) => aluControls .add rd rs (.register rt) .zero
  | .legal (.sub rd rs rt) => aluControls .sub rd rs (.register rt) .zero
  | .legal (.and rd rs rt) => aluControls .and rd rs (.register rt) .zero
  | .legal (.or rd rs rt) => aluControls .or rd rs (.register rt) .zero
  | .legal (.xor rd rs rt) => aluControls .xor rd rs (.register rt) .zero
  | .legal (.slt rd rs rt) => aluControls .slt rd rs (.register rt) .zero
  | .legal (.ori rd rs imm4) => aluControls .or rd rs (.immediate imm4) .zero
  | .legal (.adc rd rs) => aluControls .add rd rd (.register rs) .flagC
  | .legal (.sbb rd rs) => aluControls .sub rd rd (.register rs) .flagC
  | .legal (.lw rs base off4) => ⟨Option.none, .loadTo rs, .read base off4, .plus4, .keep⟩
  | .legal (.sw rs base off4) => ⟨Option.none, .none, .write base off4 rs, .plus4, .keep⟩
  | .legal (.beqz rs off8) => pcControls (.branch .eqz rs off8)
  | .legal (.bnez rs off8) => pcControls (.branch .nez rs off8)
  | .legal (.bltz rs off8) => pcControls (.branch .ltz rs off8)
  | .legal (.bgez rs off8) => pcControls (.branch .gez rs off8)
  | .legal (.j _ target12) => pcControls (.target target12)
  | .legal (.jal _ target12) => ⟨Option.none, .link, .none, .maskedTarget target12, .keep⟩
  | .legal (.jr rs) => pcControls (.triple rs)
  | .legal .halt => ⟨Option.none, .none, .none, .hold, .halt⟩
  | .illegal _ => ⟨Option.none, .none, .none, .hold, .fault⟩

/-- The value of the ALU's second operand. -/
def aluSrcValue (s : State) : AluSrc → Nibble
  | .register i => readReg s i
  | .immediate imm4 => imm4

/-- The value of the carry in. -/
def carryIn (s : State) : CarrySel → Bool
  | .zero => false
  | .flagC => s.c

/-- The ALU's outputs under its controls. -/
def aluUnder (s : State) (k : AluControl) : AluOut :=
  alu k.fn (readReg s k.a) (aluSrcValue s k.b) (carryIn s k.cin)

/-- Whether a branch test holds of a value, from its bits: `v = 0`, `v[3] = 1` and their opposites (R131 to R134). -/
def condHolds (v : Nibble) : BranchCond → Bool
  | .eqz => v == 0
  | .nez => v != 0
  | .ltz => v.getLsbD 3
  | .gez => !v.getLsbD 3

/-- The address the `DMEM` port is driven with; none when the instruction makes no access. -/
def dmemAddress (s : State) : DmemControl → Option DataAddr
  | .none => Option.none
  | .read base off4 => some (effectiveAddress s base off4)
  | .write base off4 _ => some (effectiveAddress s base off4)

/-- The next `pc`. -/
def nextPcValue (s : State) : NextPcControl → PcAddr
  | .plus4 => nextPc s.pc
  | .branch cond rs off8 => if condHolds (readReg s rs) cond then branchTarget s.pc off8 else nextPc s.pc
  | .target target12 => target12
  | .maskedTarget target12 => jalTarget target12
  | .triple rs => registerTriple s rs
  | .hold => s.pc

/-- The cell the `DMEM` controls read at the start of the step; none when the instruction drives no address. -/
def dmemReadData (s : State) (k : DmemControl) : Option Nibble := (dmemAddress s k).map (memRead s)

/-- The register write of the datapath. Its values come from the state `s0` at the start of the step and from the read data of
`DMEM`. -/
def regWriteUnder (k : Controls) (rdata : Option Nibble) (s0 s : State) : State :=
  match k.regWrite with
  | .none => s
  | .aluTo rd =>
    match k.alu with
    | Option.none => s
    | some a => writeReg rd (aluUnder s0 a).r s
  | .loadTo rs =>
    match rdata with
    | Option.none => s
    | some v => writeReg rs v s
  | .link => writeLink (nextPc s0.pc) s

/-- The flag write of the datapath. -/
def flagsUnder (k : Controls) (s0 s : State) : State :=
  match k.alu with
  | Option.none => s
  | some a => writeFlags (aluUnder s0 a).c (aluUnder s0 a).z s

/-- The run state's update. -/
def runUnder (k : Controls) (s : State) : State :=
  match k.run with
  | .keep => s
  | .halt => haltRun s
  | .fault => raiseIllegal s

/-- The part of the datapath inside the CORE: registers, flags, `pc` and run state, the read data of `DMEM` given. Every value
is computed from the state at the start of the step, and all writes are committed together (R83). -/
def coreUnder (k : Controls) (rdata : Option Nibble) (s : State) : State :=
  runUnder k (writePc (nextPcValue s k.nextPc) (flagsUnder k s (regWriteUnder k rdata s s)))

/-- The store of the datapath. -/
def storeUnder (k : Controls) (s0 s : State) : State :=
  match k.dmem with
  | .none => s
  | .read _ _ => s
  | .write base off4 rs => memWrite (effectiveAddress s0 base off4) (readReg s0 rs) s

/-- The datapath with `DMEM` attached: the CORE's part with the cell `DMEM` reads, and the store. -/
def datapath (k : Controls) (s : State) : State := storeUnder k s (coreUnder k (dmemReadData s k.dmem) s)

end Sys2Proof.Machine
end

