-- ==== Sys2Proof/Machine/Ports.lean ====
section
/-! DEFINITION. The block's boundary: the signal list of R187 (70_reset_and_hazards.md) at instruction boundaries, the memories
outside the block. "No other rule depends on it", and `step` does not use it. The clock is left out: the number of cycles per
instruction is not specified (R187, R192). -/

namespace Sys2Proof.Machine

/-- The inputs the CORE obeys between instructions, and the read data of the two memories (R187). -/
structure PortsIn where
  rst : Bool
  entryPc : PcAddr
  stepEn : Bool
  imemRdata : Word16
  dmemRdata : Nibble
  deriving DecidableEq, Repr

/-- The outputs (R187). `dmemAddr` and `dmemWdata` are `none` while no instruction that drives them executes (log entry 11). -/
structure PortsOut where
  imemAddr : PcAddr
  dmemAddr : Option DataAddr
  dmemWdata : Option Nibble
  dmemWe : Bool
  halted : Bool
  fault : Bool
  debugRegs : Vector Nibble 16
  debugPc : PcAddr
  debugC : Bool
  debugZ : Bool
  deriving DecidableEq, Repr

/-- Whether the CORE starts an instruction at this boundary: it is Running, `step_en` is high and `rst` is low (R80, R89, R187;
that `rst` wins is log entry 11). -/
def startsInstruction (i : PortsIn) (s : State) : Bool := !i.rst && i.stepEn && decide (s.run = .running)

/-- The `DMEM` controls of the instruction that starts, decoded from `imem_rdata`; no access when none starts. -/
def activeDmem (i : PortsIn) (s : State) : DmemControl :=
  if startsInstruction i s then (controls (decode i.imemRdata)).dmem else .none

/-- The store data: `x[rs]` of SW. -/
def storeData (s : State) : DmemControl → Option Nibble
  | .none => Option.none
  | .read _ _ => Option.none
  | .write _ _ rs => some (readReg s rs)

/-- The outputs under the inputs, `dmem_we` "high only in the commit of SW" (R187). -/
def portsOut (i : PortsIn) (s : State) : PortsOut where
  imemAddr := s.pc
  dmemAddr := dmemAddress s (activeDmem i s)
  dmemWdata := storeData s (activeDmem i s)
  dmemWe := (storeData s (activeDmem i s)).isSome
  halted := decide (s.run = .halted)
  fault := decide (s.fault = some .illegalInstruction)
  debugRegs := Vector.ofFn (readReg s)
  debugPc := s.pc
  debugC := s.c
  debugZ := s.z

/-- Whether the read data inputs are what the memories answer: `imem_rdata` is `IFetch(imem_addr)` and `dmem_rdata` is
`DMEM[dmem_addr]` (R187). While no address is driven `dmem_rdata` may be anything. -/
def memoriesAnswer (i : PortsIn) (s : State) : Bool :=
  decide (i.imemRdata = iFetch s.imem (portsOut i s).imemAddr) &&
    match (portsOut i s).dmemAddr with
    | Option.none => true
    | some a => decide (i.dmemRdata = memRead s a)

/-- What `DMEM` does with the outputs: it stores when `dmem_we` is high (R37, R187). -/
def storeFromPorts (o : PortsOut) (s : State) : State :=
  match o.dmemWe, o.dmemAddr, o.dmemWdata with
  | true, some a, some v => memWrite a v s
  | _, _, _ => s

/-- What happens at an instruction boundary, from the ports alone: `rst` loads the register values of R180, sampling `entry_pc`;
otherwise the instruction in `imem_rdata`, its loaded cell in `dmem_rdata` and its store by the outputs, when one starts; and
nothing when none does (R89, R187). -/
def boundary (i : PortsIn) (s : State) : State :=
  if i.rst then resetCore i.entryPc s
  else if startsInstruction i s then
    storeFromPorts (portsOut i s) (coreUnder (controls (decode i.imemRdata)) (some i.dmemRdata) s)
  else s

end Sys2Proof.Machine
end

