-- ==== Sys2Proof/Safety.lean ====
section
/-! DEFINITION. The terms claims are stated in: the invariant of the machine, how a run ends, and what two states share. -/

namespace Sys2Proof.Machine

/-- What holds of every state a run from a launch reaches: the cell of register 0 holds 0 (R12), both memories are in canonical
form, and a machine that is Running records no fault (R19, R24). -/
def State.Inv (s : State) : Prop :=
  s.regs[0] = 0 ∧ Memory.wf Config.dmemSize s.dmem = true ∧ Memory.wf Config.imemSize s.imem = true ∧
    (s.run = .running → s.fault = none)

/-- The normal end of a run: by HALT (R185). -/
def State.EndedNormally (s : State) : Prop := s.run = .halted ∧ s.fault = none

/-- The abnormal end of a run: by the illegal-instruction fault; "the faulted state is not a successful final state" (R185). -/
def State.EndedFaulted (s : State) : Prop := s.run = .halted ∧ s.fault = some .illegalInstruction

/-- Every general register but those listed reads the same in both states. -/
def sameRegsExcept (ds : List RegIdx) (s t : State) : Prop := ∀ i : RegIdx, i ∉ ds → readReg t i = readReg s i

/-- Every cell of the data space reads the same in both states. -/
def sameDmem (s t : State) : Prop := ∀ a : DataAddr, memRead t a = memRead s a

/-- Every cell of the data space but `ea` reads the same in both states. -/
def sameDmemExcept (ea : DataAddr) (s t : State) : Prop := ∀ a : DataAddr, a ≠ ea → memRead t a = memRead s a

/-- Every cell of the instruction space reads the same in both states. -/
def sameImem (s t : State) : Prop := ∀ a : PcAddr, readCell t.imem a.toNat = readCell s.imem a.toNat

/-- Both flags are the same in both states. -/
def sameFlags (s t : State) : Prop := t.c = s.c ∧ t.z = s.z

/-- The run state and the fault record are the same in both states. -/
def sameRun (s t : State) : Prop := t.run = s.run ∧ t.fault = s.fault

/-- What an instruction of the ALU leaves alone: every register but its destination, both memories, the run state. -/
def aluFrame (rd : RegIdx) (s t : State) : Prop :=
  sameRegsExcept [rd] s t ∧ sameDmem s t ∧ sameImem s t ∧ sameRun s t

/-- What an instruction that only moves `pc` leaves alone: everything else. -/
def pcOnlyFrame (s t : State) : Prop :=
  sameRegsExcept [] s t ∧ sameFlags s t ∧ sameDmem s t ∧ sameImem s t ∧ sameRun s t

/-- The machine is Running and the word at `pc` is one of the instructions named. -/
def executes (s : State) (mnemonics : List String) : Prop :=
  s.run = .running ∧ ∃ i, decode (iFetch s.imem s.pc) = .legal i ∧ (tableRow i).mnemonic ∈ mnemonics

/-- The machine is Running and the word at `pc` is illegal. -/
def meetsIllegal (s : State) : Prop := s.run = .running ∧ isIllegal (iFetch s.imem s.pc) = true

end Sys2Proof.Machine
end

