-- ==== Sys2Proof/Certificates/Slice0/Obligations.lean ====
section
/-! DEFINITION. The statements for the provers. Each docstring names the rules of spec/ it formalises; `OBLIGATIONS.json` lists
them. A register's value is written as a number, `(readReg s i).toNat`, or as a bit pattern, `readReg s i`. -/

open Sys2Proof Sys2Proof.Machine

/-! ## Encoding and decoding -/

/-- Decode and encode agree on every well-formed instruction (R65, R76). -/
def Obligations.DecodeOfEncodeIsIdentity : Prop :=
  ∀ i : Instr, i.WellFormed = true → decode (encode i) = .legal i

/-- Every legal word is the encoding of its instruction but for the bits the decoder ignores (R65, R67). -/
def Obligations.EncodeOfDecodeRestoresReadBits : Prop :=
  ∀ (w : Word16) (i : Instr), decode w = .legal i → i.WellFormed = true ∧ encode i = w &&& ~~~(ignoredBits i)

/-- The words of the six formats as numbers, every unused field 0 (R76). -/
def Obligations.EncodedWordsAsNumbers : Prop :=
  (∀ rd rs rt : RegIdx,
    (encode (.add rd rs rt)).toNat = 0x1000 + 256 * rd + 16 * rs + rt ∧
    (encode (.sub rd rs rt)).toNat = 0x2000 + 256 * rd + 16 * rs + rt ∧
    (encode (.and rd rs rt)).toNat = 0x3000 + 256 * rd + 16 * rs + rt ∧
    (encode (.or rd rs rt)).toNat = 0x4000 + 256 * rd + 16 * rs + rt ∧
    (encode (.xor rd rs rt)).toNat = 0x5000 + 256 * rd + 16 * rs + rt ∧
    (encode (.slt rd rs rt)).toNat = 0x6000 + 256 * rd + 16 * rs + rt) ∧
  (∀ (ra rb : RegIdx) (n : Nibble),
    (encode (.ori ra rb n)).toNat = 0x7000 + 256 * ra + 16 * rb + n.toNat ∧
    (encode (.lw ra rb n)).toNat = 0x8000 + 256 * ra + 16 * rb + n.toNat ∧
    (encode (.sw ra rb n)).toNat = 0x9000 + 256 * ra + 16 * rb + n.toNat) ∧
  (∀ (rs : RegIdx) (off8 : BitVec 8),
    (encode (.beqz rs off8)).toNat = 0xA000 + 256 * rs + off8.toNat ∧
    (encode (.bnez rs off8)).toNat = 0xB000 + 256 * rs + off8.toNat ∧
    (encode (.bltz rs off8)).toNat = 0xC000 + 256 * rs + off8.toNat ∧
    (encode (.bgez rs off8)).toNat = 0xD000 + 256 * rs + off8.toNat) ∧
  (∀ target12 : BitVec 12,
    (encode (.j false target12)).toNat = 0xE000 + target12.toNat ∧
    (encode (.jal true target12)).toNat = 0xF000 + target12.toNat) ∧
  (∀ rd rs : RegIdx,
    (encode (.adc rd rs)).toNat = 256 * rd + 16 * rs + 1 ∧ (encode (.sbb rd rs)).toNat = 256 * rd + 16 * rs + 2 ∧
    (encode (.jr rs)).toNat = 16 * rs + 3) ∧
  (encode .halt).toNat = 4

/-- A word is an instruction of a row of the opcode table exactly when it has the row's fixed bits (R62, R63). -/
def Obligations.DecodeFollowsOpcodeTable : Prop :=
  (∀ (w : Word16) (i : Instr), decode w = .legal i → w &&& (tableRow i).mask = (tableRow i).pattern) ∧
  (∀ (w : Word16) (j : Instr), w &&& (tableRow j).mask = (tableRow j).pattern →
    ∃ i, decode w = .legal i ∧ tableRow i = tableRow j)

/-- The field extractor (R51). -/
def Obligations.FieldExtraction : Prop :=
  ∀ w : Word16,
    (extractFields w).op.toNat = w.toNat / 4096 ∧ (extractFields w).fa.toNat = w.toNat / 256 % 16 ∧
    (extractFields w).fb.toNat = w.toNat / 16 % 16 ∧ (extractFields w).fc.toNat = w.toNat % 16 ∧
    (extractFields w).off8 = (extractFields w).fb ++ (extractFields w).fc ∧
    (extractFields w).target12 = (extractFields w).fa ++ (extractFields w).fb ++ (extractFields w).fc ∧
    (extractFields w).link = w.getLsbD 12 ∧ (extractFields w).link = (extractFields w).op.getLsbD 0

/-- The illegal words: which they are, how many, that executing one raises the fault, and that every other word is legal
(R66). -/
def Obligations.IllegalWordsExactly : Prop :=
  (∀ w : Word16, isIllegal w = true ↔ w.toNat / 4096 = 0 ∧ (w.toNat % 16 = 0 ∨ 5 ≤ w.toNat % 16)) ∧
  ((List.range 65536).countP fun n => isIllegal (BitVec.ofNat 16 n)) = 3072 ∧
  (∀ w : Word16, isIllegal w = true → w.toNat ≤ 0x0FFF) ∧
  (∀ s : State, meetsIllegal s → step s = .next (raiseIllegal s)) ∧
  (∀ w : Word16, isIllegal w = false → ∃ i, decode w = .legal i) ∧
  isIllegal 0x0000 = true ∧ decode 0xFFFF = .legal (.jal true 0xFFF) ∧
  (∀ s : State, ∃ t, exec (.jal true 0xFFF) s = .next t ∧ t.pc = 0x7FF)

/-- The bits an instruction does not use may hold anything and the instruction is the same (R67). -/
def Obligations.UnusedBitsAreIgnored : Prop :=
  (∀ (a : Nibble) (rs : RegIdx), decode (0x0#4 ++ a ++ fieldOf rs ++ 0x3#4) = .legal (.jr rs)) ∧
  (∀ a b : Nibble, decode (0x0#4 ++ a ++ b ++ 0x4#4) = .legal .halt) ∧
  (∀ (b11 : Bool) (t : BitVec 11) (s : State),
    decode (0xF#4 ++ BitVec.ofBool b11 ++ t) = .legal (.jal true (BitVec.ofBool b11 ++ t)) ∧
    exec (.jal true (BitVec.ofBool b11 ++ t)) s = exec (.jal true (BitVec.ofBool false ++ t)) s)

/-- A few words written out from the encoding tables (R62, R63, R66). -/
def Obligations.WrittenWordsDecode : Prop :=
  decode 0b0001_0010_0001_0011 = .legal (.add 2 1 3) ∧ decode 0b0111_0001_0000_0101 = .legal (.ori 1 0 5) ∧
  decode 0b0000_0001_0010_0010 = .legal (.sbb 1 2) ∧ decode 0b1001_0001_0100_1111 = .legal (.sw 1 4 0xF) ∧
  decode 0b1011_0001_1111_1011 = .legal (.bnez 1 0xFB) ∧ decode 0b1110_1000_0001_0000 = .legal (.j false 0x810) ∧
  decode 0b0000_1101_0010_0011 = .legal (.jr 2) ∧ decode 0b0000_0000_0000_0100 = .legal .halt ∧
  decode 0b0000_0001_0010_0101 = .illegal 0x0125

/-! ## The ALU instructions -/

/-- ADD: encoding, result, flags and frame (R100). -/
def Obligations.AddResultAndFrame : Prop :=
  ∀ (rd rs rt : RegIdx) (s : State),
    decode (0x1#4 ++ fieldOf rd ++ fieldOf rs ++ fieldOf rt) = .legal (.add rd rs rt) ∧
    ∃ t, exec (.add rd rs rt) s = .next t ∧
      (readReg t rd).toNat = (if rd = 0 then 0 else ((readReg s rs).toNat + (readReg s rt).toNat) % 16) ∧
      t.c = decide ((readReg s rs).toNat + (readReg s rt).toNat > 15) ∧
      t.z = decide (((readReg s rs).toNat + (readReg s rt).toNat) % 16 = 0) ∧
      t.pc = s.pc + 4 ∧ aluFrame rd s t

/-- SUB: encoding, result, borrow, zero and frame (R101). -/
def Obligations.SubResultAndFrame : Prop :=
  ∀ (rd rs rt : RegIdx) (s : State),
    decode (0x2#4 ++ fieldOf rd ++ fieldOf rs ++ fieldOf rt) = .legal (.sub rd rs rt) ∧
    ∃ t, exec (.sub rd rs rt) s = .next t ∧
      ((readReg t rd).toNat : Int) =
        (if rd = 0 then 0 else ((readReg s rs).toNat - (readReg s rt).toNat : Int) % 16) ∧
      t.c = decide ((readReg s rs).toNat < (readReg s rt).toNat) ∧
      t.z = decide (((readReg s rs).toNat - (readReg s rt).toNat : Int) % 16 = 0) ∧
      t.pc = s.pc + 4 ∧ aluFrame rd s t

/-- AND, OR and XOR: encodings, bitwise results, cleared carry, zero flag and frame (R102, R103, R104). -/
def Obligations.BitwiseResultsAndFrame : Prop :=
  ∀ (rd rs rt : RegIdx) (s : State),
    decode (0x3#4 ++ fieldOf rd ++ fieldOf rs ++ fieldOf rt) = .legal (.and rd rs rt) ∧
    decode (0x4#4 ++ fieldOf rd ++ fieldOf rs ++ fieldOf rt) = .legal (.or rd rs rt) ∧
    decode (0x5#4 ++ fieldOf rd ++ fieldOf rs ++ fieldOf rt) = .legal (.xor rd rs rt) ∧
    ∀ p ∈ [(Instr.and rd rs rt, readReg s rs &&& readReg s rt), (.or rd rs rt, readReg s rs ||| readReg s rt),
        (.xor rd rs rt, readReg s rs ^^^ readReg s rt)],
      ∃ t, exec p.1 s = .next t ∧ readReg t rd = (if rd = 0 then 0 else p.2) ∧ t.c = false ∧ t.z = decide (p.2 = 0) ∧
        t.pc = s.pc + 4 ∧ aluFrame rd s t

/-- SLT: encoding, signed comparison, flags and frame (R105). -/
def Obligations.SltResultAndFrame : Prop :=
  ∀ (rd rs rt : RegIdx) (s : State),
    decode (0x6#4 ++ fieldOf rd ++ fieldOf rs ++ fieldOf rt) = .legal (.slt rd rs rt) ∧
    ∃ t, exec (.slt rd rs rt) s = .next t ∧
      readReg t rd = (if rd ≠ 0 ∧ (readReg s rs).toInt < (readReg s rt).toInt then 1 else 0) ∧
      t.c = false ∧ t.z = decide ((readReg s rt).toInt ≤ (readReg s rs).toInt) ∧
      t.pc = s.pc + 4 ∧ aluFrame rd s t

/-- ORI: encoding, the unextended 4-bit immediate, flags and frame (R110). -/
def Obligations.OriResultAndFrame : Prop :=
  ∀ (rd rs : RegIdx) (imm4 : Nibble) (s : State),
    decode (0x7#4 ++ fieldOf rd ++ fieldOf rs ++ imm4) = .legal (.ori rd rs imm4) ∧
    ∃ t, exec (.ori rd rs imm4) s = .next t ∧
      readReg t rd = (if rd = 0 then 0 else readReg s rs ||| imm4) ∧
      t.c = false ∧ t.z = decide (readReg s rs ||| imm4 = 0) ∧ t.pc = s.pc + 4 ∧ aluFrame rd s t

/-- ADC: encoding, the old destination and the carry as operands, flags and frame (R115). -/
def Obligations.AdcResultAndFrame : Prop :=
  ∀ (rd rs : RegIdx) (s : State),
    decode (0x0#4 ++ fieldOf rd ++ fieldOf rs ++ 0x1#4) = .legal (.adc rd rs) ∧
    ∃ t, exec (.adc rd rs) s = .next t ∧
      (readReg t rd).toNat = (if rd = 0 then 0 else ((readReg s rd).toNat + (readReg s rs).toNat + s.c.toNat) % 16) ∧
      t.c = decide ((readReg s rd).toNat + (readReg s rs).toNat + s.c.toNat > 15) ∧
      t.z = decide (((readReg s rd).toNat + (readReg s rs).toNat + s.c.toNat) % 16 = 0) ∧
      t.pc = s.pc + 4 ∧ aluFrame rd s t

/-- SBB: encoding, the old destination as left operand and the carry as borrow, flags and frame (R116). -/
def Obligations.SbbResultAndFrame : Prop :=
  ∀ (rd rs : RegIdx) (s : State),
    decode (0x0#4 ++ fieldOf rd ++ fieldOf rs ++ 0x2#4) = .legal (.sbb rd rs) ∧
    ∃ t, exec (.sbb rd rs) s = .next t ∧
      ((readReg t rd).toNat : Int) =
        (if rd = 0 then 0 else ((readReg s rd).toNat - (readReg s rs).toNat - s.c.toNat : Int) % 16) ∧
      t.c = decide ((readReg s rd).toNat < (readReg s rs).toNat + s.c.toNat) ∧
      t.z = decide (((readReg s rd).toNat - (readReg s rs).toNat - s.c.toNat : Int) % 16 = 0) ∧
      t.pc = s.pc + 4 ∧ aluFrame rd s t

/-- ADD then ADC add two-nibble numbers, and SUB then SBB subtract them, with the carry or borrow of the whole (R92, R93).
The first result must not overwrite an operand of the second instruction. -/
def Obligations.TwoNibbleArithmeticChains : Prop :=
  ∀ (lo hi blo bhi : RegIdx) (s : State), lo ≠ 0 → hi ≠ 0 → lo ≠ hi → lo ≠ bhi →
    (∃ t u, exec (.add lo lo blo) s = .next t ∧ exec (.adc hi bhi) t = .next u ∧
      16 * (readReg u hi).toNat + (readReg u lo).toNat =
        ((16 * (readReg s hi).toNat + (readReg s lo).toNat) + (16 * (readReg s bhi).toNat + (readReg s blo).toNat)) % 256 ∧
      u.c = decide ((16 * (readReg s hi).toNat + (readReg s lo).toNat) +
        (16 * (readReg s bhi).toNat + (readReg s blo).toNat) > 255)) ∧
    (∃ t u, exec (.sub lo lo blo) s = .next t ∧ exec (.sbb hi bhi) t = .next u ∧
      (16 * (readReg u hi).toNat + (readReg u lo).toNat : Int) =
        ((16 * (readReg s hi).toNat + (readReg s lo).toNat) - (16 * (readReg s bhi).toNat + (readReg s blo).toNat) : Int) % 256 ∧
      u.c = decide (16 * (readReg s hi).toNat + (readReg s lo).toNat <
        16 * (readReg s bhi).toNat + (readReg s blo).toNat))

/-! ## Load and store -/

/-- LW: encoding, effective address, loaded value, and frame (R120, R121, R122). -/
def Obligations.LoadResultAndFrame : Prop :=
  ∀ (rs base : RegIdx) (off4 : Nibble) (s : State),
    decode (0x8#4 ++ fieldOf rs ++ fieldOf base ++ off4) = .legal (.lw rs base off4) ∧
    (baseAddress s base).toNat = 16 * (readReg s base).toNat + (readReg s (base + 1)).toNat ∧
    ((effectiveAddress s base off4).toNat : Int) = ((baseAddress s base).toNat + off4.toInt) % 256 ∧
    ∃ t, exec (.lw rs base off4) s = .next t ∧
      readReg t rs = (if rs = 0 then 0 else memRead s (effectiveAddress s base off4)) ∧
      t.pc = s.pc + 4 ∧ sameRegsExcept [rs] s t ∧ sameFlags s t ∧ sameDmem s t ∧ sameImem s t ∧ sameRun s t

/-- SW: encoding, effective address, stored value, and frame: every other cell reads as before (R120, R121, R123). -/
def Obligations.StoreResultAndFrame : Prop :=
  ∀ (rs base : RegIdx) (off4 : Nibble) (s : State),
    decode (0x9#4 ++ fieldOf rs ++ fieldOf base ++ off4) = .legal (.sw rs base off4) ∧
    (baseAddress s base).toNat = 16 * (readReg s base).toNat + (readReg s (base + 1)).toNat ∧
    ((effectiveAddress s base off4).toNat : Int) = ((baseAddress s base).toNat + off4.toInt) % 256 ∧
    ∃ t, exec (.sw rs base off4) s = .next t ∧
      memRead t (effectiveAddress s base off4) = readReg s rs ∧
      sameDmemExcept (effectiveAddress s base off4) s t ∧
      t.pc = s.pc + 4 ∧ sameRegsExcept [] s t ∧ sameFlags s t ∧ sameImem s t ∧ sameRun s t

/-- A load from the cell a store wrote returns the stored value, and a load from any other cell what it held before the store,
through whatever registers the address is formed (R36, R44). -/
def Obligations.LoadAfterStore : Prop :=
  ∀ (rs base rd base' : RegIdx) (off4 off4' : Nibble) (s : State), rd ≠ 0 →
    ∃ t u, exec (.sw rs base off4) s = .next t ∧ exec (.lw rd base' off4') t = .next u ∧
      readReg u rd =
        if effectiveAddress s base' off4' = effectiveAddress s base off4 then readReg s rs
        else memRead s (effectiveAddress s base' off4')

/-- No step changes the instruction space, so a store is never seen by a later fetch (R31, R47). -/
def Obligations.StoresNeverReachFetch : Prop :=
  ∀ s t : State, step s = .next t → t.imem = s.imem ∧ ∀ a : PcAddr, iFetch t.imem a = iFetch s.imem a

/-! ## Control flow -/

/-- The four branches: encodings, conditions, both targets from the branch's own address, and frame (R130 to R134). -/
def Obligations.BranchResultsAndFrame : Prop :=
  ∀ (rs : RegIdx) (off8 : BitVec 8) (s : State),
    decode (0xA#4 ++ fieldOf rs ++ off8) = .legal (.beqz rs off8) ∧
    decode (0xB#4 ++ fieldOf rs ++ off8) = .legal (.bnez rs off8) ∧
    decode (0xC#4 ++ fieldOf rs ++ off8) = .legal (.bltz rs off8) ∧
    decode (0xD#4 ++ fieldOf rs ++ off8) = .legal (.bgez rs off8) ∧
    ∀ p ∈ [(Instr.beqz rs off8, decide ((readReg s rs).toNat = 0)), (.bnez rs off8, decide ((readReg s rs).toNat ≠ 0)),
        (.bltz rs off8, decide ((readReg s rs).toInt < 0)), (.bgez rs off8, decide ((readReg s rs).toInt ≥ 0))],
      ∃ t, exec p.1 s = .next t ∧
        (t.pc.toNat : Int) =
          (if p.2 = true then ((s.pc.toNat : Int) + 4 * off8.toInt) % 4096 else ((s.pc.toNat : Int) + 4) % 4096) ∧
        pcOnlyFrame s t

/-- J: encoding, the target as it stands, and frame (R140). -/
def Obligations.JumpResultAndFrame : Prop :=
  ∀ (target12 : BitVec 12) (s : State),
    decode (0xE#4 ++ target12) = .legal (.j false target12) ∧
    ∃ t, exec (.j false target12) s = .next t ∧ t.pc = target12 ∧ pcOnlyFrame s t

/-- JAL: encoding, the return address in the link triple, the masked target, and frame (R141). -/
def Obligations.JumpAndLinkResultAndFrame : Prop :=
  ∀ (target12 : BitVec 12) (s : State),
    decode (0xF#4 ++ target12) = .legal (.jal true target12) ∧
    ∃ t, exec (.jal true target12) s = .next t ∧
      (readReg t 13).toNat = (s.pc.toNat + 4) % 4096 / 256 ∧
      (readReg t 14).toNat = (s.pc.toNat + 4) % 4096 / 16 % 16 ∧
      (readReg t 15).toNat = (s.pc.toNat + 4) % 4096 % 16 ∧
      t.pc.toNat = target12.toNat % 2048 ∧
      sameRegsExcept [13, 14, 15] s t ∧ sameFlags s t ∧ sameDmem s t ∧ sameImem s t ∧ sameRun s t

/-- JR: encoding with any ignored bits, the address from three consecutive registers, and frame (R142). -/
def Obligations.JumpRegisterResultAndFrame : Prop :=
  ∀ (ignored : Nibble) (rs : RegIdx) (s : State),
    decode (0x0#4 ++ ignored ++ fieldOf rs ++ 0x3#4) = .legal (.jr rs) ∧
    ∃ t, exec (.jr rs) s = .next t ∧
      t.pc.toNat = 256 * (readReg s rs).toNat + 16 * (readReg s (rs + 1)).toNat + (readReg s (rs + 2)).toNat ∧
      (rs = 13 → t.pc = linkTriple s) ∧ pcOnlyFrame s t

/-- Two J-format words that differ only in bit 12 have the same target and differ as J and JAL differ; bit 11 of the target
plays no part in it (R143). -/
def Obligations.LinkBitDecidesLinking : Prop :=
  ∀ (target12 : BitVec 12) (s : State),
    (0xE#4 ++ target12 : Word16) ^^^ (0xF#4 ++ target12) = 0x1000 ∧
    (extractFields (0xE#4 ++ target12)).target12 = (extractFields (0xF#4 ++ target12)).target12 ∧
    ∃ i k t u, decode (0xE#4 ++ target12) = .legal i ∧ decode (0xF#4 ++ target12) = .legal k ∧
      exec i s = .next t ∧ exec k s = .next u ∧
      t.pc = target12 ∧ pcOnlyFrame s t ∧
      u.pc = target12 &&& 0x7FF ∧ linkTriple u = s.pc + 4 ∧ sameRegsExcept [13, 14, 15] s u ∧ sameFlags s u ∧
      sameDmem s u ∧ sameImem s u ∧ sameRun s u

/-- `JR r13` after a JAL goes to the instruction after the call, with every register but the link triple as before the call
(R141, R142). -/
def Obligations.CallThenReturn : Prop :=
  ∀ (target12 : BitVec 12) (s : State),
    ∃ t u, exec (.jal true target12) s = .next t ∧ exec (.jr 13) t = .next u ∧
      linkTriple t = s.pc + 4 ∧ u.pc = s.pc + 4 ∧ sameRegsExcept [13, 14, 15] s u ∧ sameFlags s u ∧ sameDmem s u

/-- The new `pc` of every instruction class, and of an illegal word (R15). -/
def Obligations.PcAfterEveryInstruction : Prop :=
  (∀ (i : Instr) (s t : State), exec i s = .next t →
    (t.pc.toNat : Int) =
      match i with
      | .add _ _ _ | .sub _ _ _ | .and _ _ _ | .or _ _ _ | .xor _ _ _ | .slt _ _ _ | .ori _ _ _ | .adc _ _ | .sbb _ _
      | .lw _ _ _ | .sw _ _ _ => ((s.pc.toNat : Int) + 4) % 4096
      | .beqz rs off8 => ((s.pc.toNat : Int) + if (readReg s rs).toInt = 0 then 4 * off8.toInt else 4) % 4096
      | .bnez rs off8 => ((s.pc.toNat : Int) + if (readReg s rs).toInt ≠ 0 then 4 * off8.toInt else 4) % 4096
      | .bltz rs off8 => ((s.pc.toNat : Int) + if (readReg s rs).toInt < 0 then 4 * off8.toInt else 4) % 4096
      | .bgez rs off8 => ((s.pc.toNat : Int) + if 0 ≤ (readReg s rs).toInt then 4 * off8.toInt else 4) % 4096
      | .j _ target12 => (target12.toNat : Int)
      | .jal _ target12 => (target12.toNat : Int) % 2048
      | .jr rs => 256 * (readReg s rs).toNat + 16 * (readReg s (rs + 1)).toNat + (readReg s (rs + 2)).toNat
      | .halt => (s.pc.toNat : Int)) ∧
  ∀ s t : State, meetsIllegal s → step s = .next t → t.pc = s.pc

/-! ## Flags -/

/-- Both flags after every instruction, and after an illegal word; the flag write does not depend on the destination (R17). -/
def Obligations.FlagsAfterEveryInstruction : Prop :=
  (∀ (i : Instr) (s t : State), exec i s = .next t →
    match i with
    | .and _ rs rt => t.c = false ∧ t.z = decide (readReg s rs &&& readReg s rt = 0)
    | .or _ rs rt => t.c = false ∧ t.z = decide (readReg s rs ||| readReg s rt = 0)
    | .xor _ rs rt => t.c = false ∧ t.z = decide (readReg s rs ^^^ readReg s rt = 0)
    | .ori _ rs imm4 => t.c = false ∧ t.z = decide (readReg s rs ||| imm4 = 0)
    | .slt _ rs rt => t.c = false ∧ t.z = decide ((readReg s rt).toInt ≤ (readReg s rs).toInt)
    | .add _ rs rt =>
      t.c = decide ((readReg s rs).toNat + (readReg s rt).toNat > 15) ∧
      t.z = decide (((readReg s rs).toNat + (readReg s rt).toNat) % 16 = 0)
    | .adc rd rs =>
      t.c = decide ((readReg s rd).toNat + (readReg s rs).toNat + s.c.toNat > 15) ∧
      t.z = decide (((readReg s rd).toNat + (readReg s rs).toNat + s.c.toNat) % 16 = 0)
    | .sub _ rs rt =>
      t.c = decide ((readReg s rs).toNat < (readReg s rt).toNat) ∧ t.z = decide (readReg s rs = readReg s rt)
    | .sbb rd rs =>
      t.c = decide ((readReg s rd).toNat < (readReg s rs).toNat + s.c.toNat) ∧
      t.z = decide (((readReg s rd).toNat - (readReg s rs).toNat - s.c.toNat : Int) % 16 = 0)
    | .lw _ _ _ | .sw _ _ _ | .beqz _ _ | .bnez _ _ | .bltz _ _ | .bgez _ _ | .j _ _ | .jal _ _ | .jr _ | .halt =>
      sameFlags s t) ∧
  ∀ s t : State, meetsIllegal s → step s = .next t → sameFlags s t

/-- No instruction reads `Z`, and only ADC and SBB read `C` (R16): an instruction that writes the flags makes the same state
whatever the flag held, and every other step makes the same state and hands the flag on as it was. -/
def Obligations.FlagsAreReadByNoOtherInstruction : Prop :=
  ∀ s t : State, step s = .next t →
    (executes s ["ADD", "SUB", "AND", "OR", "XOR", "SLT", "ORI", "ADC", "SBB"] →
      ∀ b : Bool, step { s with z := b } = .next t) ∧
    (¬ executes s ["ADD", "SUB", "AND", "OR", "XOR", "SLT", "ORI", "ADC", "SBB"] →
      ∀ b : Bool, step { s with z := b } = .next { t with z := b }) ∧
    (executes s ["ADD", "SUB", "AND", "OR", "XOR", "SLT", "ORI"] →
      ∀ b : Bool, step { s with c := b } = .next t) ∧
    (¬ executes s ["ADD", "SUB", "AND", "OR", "XOR", "SLT", "ORI", "ADC", "SBB"] →
      ∀ b : Bool, step { s with c := b } = .next { t with c := b })

/-! ## The step, the fault, the run state -/

/-- A step runs the decoded instruction (R80, R81, R82). -/
def Obligations.StepRunsDecodedInstruction : Prop :=
  ∀ (s : State) (i : Instr), s.run = .running → decode (iFetch s.imem s.pc) = .legal i →
    i.WellFormed = true ∧ step s = exec i s

/-- Every step answers a next state: no address faults (R38, R162), every word is an instruction or illegal (R65), a halted
machine keeps its state (R80), and an illegal word leaves the state R161 describes. That the last two are next states of `step`
and not stops is the model's choice (log entries 5 and 6). -/
def Obligations.EveryStepAnswersANextState : Prop :=
  (∀ s : State, ∃ t, step s = .next t) ∧ ∀ (i : Instr) (s : State), ∃ t, exec i s = .next t

/-- HALT: encoding with any ignored bits, the halted state, the step's result, and what follows (R150). -/
def Obligations.HaltResultAndFrame : Prop :=
  (∀ a b : Nibble, decode (0x0#4 ++ a ++ b ++ 0x4#4) = .legal .halt) ∧
  ∀ s : State, ∃ t, exec .halt s = .next t ∧ t.run = .halted ∧ t.fault = s.fault ∧ t.pc = s.pc ∧
    sameRegsExcept [] s t ∧ sameFlags s t ∧ sameDmem s t ∧ sameImem s t ∧ step t = .next t ∧
    (executes s ["HALT"] → engineStep s = .next (t, ⟨true, none⟩)) ∧
    ∀ (imemInit dmemInit : Memory) (entry : PcAddr), (launch imemInit dmemInit entry t).run = .running

/-- The illegal-instruction fault: when it is raised, what it changes, what the step returns and what is reported; no other step
sets the fault record (R161). -/
def Obligations.IllegalInstructionFault : Prop :=
  (∀ s : State, s.run = .running →
    (iFetch s.imem s.pc).extractLsb' 12 4 = 0 → ¬ (1 ≤ (iFetch s.imem s.pc).toNat % 16 ∧ (iFetch s.imem s.pc).toNat % 16 ≤ 4) →
    ∃ t, engineStep s = .next (t, ⟨true, some .illegalInstruction⟩) ∧ step s = .next t ∧
      t.run = .halted ∧ t.fault = some .illegalInstruction ∧ t.pc = s.pc ∧ t.regs = s.regs ∧ sameFlags s t ∧
      t.dmem = s.dmem ∧ t.imem = s.imem ∧ faultReport t = some (s.pc, iFetch s.imem s.pc)) ∧
  (∀ s t : State, step s = .next t →
    ¬ (s.run = .running ∧ (iFetch s.imem s.pc).extractLsb' 12 4 = 0 ∧
      ¬ (1 ≤ (iFetch s.imem s.pc).toNat % 16 ∧ (iFetch s.imem s.pc).toNat % 16 ≤ 4)) →
    t.fault = s.fault)

/-- A halted machine never changes again, and no step clears the fault record (R18, R19, R80, R166). -/
def Obligations.HaltedMachineIsFinal : Prop :=
  (∀ (s : State) (n : Nat), s.run = .halted →
    engineStep s = .next (s, ⟨true, s.fault⟩) ∧ Sys2Proof.core.run n s = .next s) ∧
  (∀ s t : State, step s = .next t → s.fault = some .illegalInstruction → t.fault = some .illegalInstruction)

/-- The result of a step says what the next state shows, for a machine whose fault record is empty while it runs (R80). -/
def Obligations.StepResultShowsTheState : Prop :=
  ∀ (s t : State) (r : StepResult), (s.run = .running → s.fault = none) → engineStep s = .next (t, r) →
    r.halted = decide (t.run = .halted) ∧ r.fault = t.fault

/-- A run ends normally exactly at HALT and abnormally exactly at an illegal word (R18, R185). -/
def Obligations.RunEndsOnlyAtHaltOrIllegalWord : Prop :=
  ∀ s t : State, s.run = .running → s.fault = none → step s = .next t →
    (t.EndedNormally ↔ executes s ["HALT"]) ∧ (t.EndedFaulted ↔ meetsIllegal s) ∧
    (t.run = .running ↔ ¬ executes s ["HALT"] ∧ ¬ meetsIllegal s)

/-- Which instructions write which element of the state (R10). -/
def Obligations.OnlyNamedInstructionsWrite : Prop :=
  ∀ s t : State, step s = .next t →
    ((∃ i, readReg t i ≠ readReg s i) →
      executes s ["ADD", "SUB", "AND", "OR", "XOR", "SLT", "ORI", "ADC", "SBB", "LW", "JAL"]) ∧
    (t.pc ≠ s.pc → s.run = .running ∧ ¬ executes s ["HALT"] ∧ ¬ meetsIllegal s) ∧
    (¬ sameFlags s t → executes s ["ADD", "SUB", "AND", "OR", "XOR", "SLT", "ORI", "ADC", "SBB"]) ∧
    (t.run ≠ s.run → executes s ["HALT"] ∨ meetsIllegal s) ∧
    (t.fault ≠ s.fault → meetsIllegal s) ∧
    ((∃ a, memRead t a ≠ memRead s a) → executes s ["SW"]) ∧
    sameImem s t

/-- The invariant every step keeps: register 0 holds 0, both memories stay canonical, a Running machine records no fault
(R12, R19; the canonical form is the model's, log entries 1 and 2). -/
def Obligations.StepKeepsInvariant : Prop := ∀ s t : State, s.Inv → step s = .next t → t.Inv

/-- The run loop makes the same state as iterated steps, whatever the budget, and returns the result of the last step it makes:
the first one that says halted, or the one that spends the budget (R80, R88). In a machine whose fault record is empty while it
runs, that result says what the final state shows. A run of 0 steps has no result: the model's choice (log entry 8). -/
def Obligations.RunLoopIsIteratedStep : Prop :=
  ∀ (n : Nat) (s : State), ∃ t r, runSteps n s = .next (t, r) ∧ Sys2Proof.core.run n s = .next t ∧ (r = none ↔ n = 0) ∧
    ∀ q, r = some q →
      (∃ m u, m < n ∧ Sys2Proof.core.run m s = .next u ∧ engineStep u = .next (t, q) ∧
        (m = 0 ∨ u.run = .running) ∧ (q.halted = true ∨ m + 1 = n)) ∧
      ((s.run = .running → s.fault = none) → q.halted = decide (t.run = .halted) ∧ q.fault = t.fault)

/-- A run that its budget stops is paused, not halted, and resuming it is the same as not having stopped (R89). -/
def Obligations.PausedRunResumes : Prop :=
  ∀ (m n : Nat) (s t : State) (r : StepResult), s.run = .running → s.fault = none →
    runSteps m s = .next (t, some r) → r.halted = false →
    t.run = .running ∧ t.fault = none ∧ r.fault = none ∧ runSteps (m + (n + 1)) s = runSteps (n + 1) t

/-- The control signals of the decoder drive a datapath that makes the same step (R69, R83). The signals' grouping and the
datapath are the model's choice (log entry 14). -/
def Obligations.ControlSignalsRefineTheStep : Prop :=
  ∀ s : State, s.run = .running → step s = .next (datapath (controls (decode (iFetch s.imem s.pc))) s)

/-! ## Memory, reset, launch, boundary -/

/-- Instruction fetch: four nibbles, the most significant first, addresses modulo 4096 (R33). -/
def Obligations.FetchAssemblesFourNibbles : Prop :=
  ∀ (imem : Memory) (a : PcAddr),
    (iFetch imem a).toNat =
      4096 * (readCell imem a.toNat).toNat + 256 * (readCell imem ((a.toNat + 1) % 4096)).toNat +
        16 * (readCell imem ((a.toNat + 2) % 4096)).toNat + (readCell imem ((a.toNat + 3) % 4096)).toNat

/-- Every content of a memory has exactly one canonical form, so the launch may be given any content and equal memories are
equal data (R182 on the content; the form is the model's, log entries 1 and 2). -/
def Obligations.EveryContentHasOneCanonicalForm : Prop :=
  ∀ (size : Nat) (content : Nat → Nibble),
    ∃ m : Memory, (Memory.wf size m = true ∧ ∀ a, a < size → readCell m a = content a) ∧
      ∀ m' : Memory, (Memory.wf size m' = true ∧ ∀ a, a < size → readCell m' a = content a) → m' = m

/-- Word `i` of an image lies at `base + 4i`, and the cells the image does not cover keep their content (R35). -/
def Obligations.ImageLiesAtItsBase : Prop :=
  ∀ (image : List Word16) (base : Nat) (rest : Memory), base + 4 * image.length ≤ 4096 →
    (∀ (k : Nat) (w : Word16), image[k]? = some w →
      iFetch (placeImage image (BitVec.ofNat 12 base) rest) (BitVec.ofNat 12 (base + 4 * k)) = w) ∧
    (∀ a : Nat, a < 4096 → ¬ (base ≤ a ∧ a < base + 4 * image.length) →
      readCell (placeImage image (BitVec.ofNat 12 base) rest) a = readCell rest a)

/-- The state after reset, from whatever state it is applied in; the CORE's own reset writes no memory cell (R24). -/
def Obligations.ResetGivesTheLaunchState : Prop :=
  ∀ (imemInit dmemInit : Memory) (entry : PcAddr) (s : State),
    (∀ i : RegIdx, (launch imemInit dmemInit entry s).regs[i] = 0) ∧
    (launch imemInit dmemInit entry s).pc = entry ∧
    (launch imemInit dmemInit entry s).c = false ∧ (launch imemInit dmemInit entry s).z = false ∧
    (launch imemInit dmemInit entry s).run = .running ∧ (launch imemInit dmemInit entry s).fault = none ∧
    (launch imemInit dmemInit entry s).imem = imemInit ∧ (launch imemInit dmemInit entry s).dmem = dmemInit ∧
    (resetCore entry s).imem = s.imem ∧ (resetCore entry s).dmem = s.dmem

/-- `State.reset` has the invariant (R12, R24; its empty memories are the model's choice, log entry 1). -/
def Obligations.ResetHasInvariant : Prop := State.reset.Inv

/-- A launch inside the address range gives exactly the state of R180: the image at its base over the other cells given, the data
space given, every register and flag 0, Running without a fault, `pc` at the entry point; and that state has the invariant. A
launch outside the range is refused (R163, R183). The range check as written, which lets an empty image through at base 4096, is
the model's (log entry 12). -/
def Obligations.LaunchIsCheckedThenExact : Prop :=
  ∀ (image : List Word16) (base entry : Nat) (rest dmemInit : Memory) (s : State),
    (entry < 4096 → base + 4 * image.length ≤ 4096 → Memory.wf 4096 rest = true → Memory.wf 256 dmemInit = true →
      ∃ t, launchImage image base entry rest dmemInit s = .next t ∧ t.Inv ∧ t.run = .running ∧ t.fault = none ∧
        t.pc.toNat = entry ∧ t.c = false ∧ t.z = false ∧ (∀ i, readReg t i = 0) ∧
        t.imem = placeImage image (BitVec.ofNat 12 base) rest ∧ t.dmem = dmemInit) ∧
    (4096 ≤ entry ∨ 4096 < base + 4 * image.length →
      launchImage image base entry rest dmemInit s = .refused .preconditionViolation)

/-- A word put where the step fetches is the instruction the next step runs (the host's placing; log entry 4). -/
def Obligations.PlacedWordRunsNext : Prop :=
  ∀ (s : State) (w : Nat) (i : Instr), decodeTableWord 16 w = some i →
    step (s.withFetchWord 16 w) = exec i (s.withFetchWord 16 w)

/-- The outputs at a boundary whose read data the memories give: the write enable is high exactly when a SW starts, and then the
address and data ports carry the cell and the value that are stored and no other cell changes; while it is low the boundary
stores nothing; the address port carries the effective address of a LW too, and nothing otherwise. The other outputs show the
state (R187). That the idle data ports carry no value and that `rst` wins over `step_en` is the model's choice (log entry 11). -/
def Obligations.DataPortShowsTheStore : Prop :=
  ∀ (i : PortsIn) (s : State), memoriesAnswer i s = true →
    (portsOut i s).imemAddr = s.pc ∧
    ((portsOut i s).halted = true ↔ s.run = .halted) ∧ ((portsOut i s).fault = true ↔ s.fault = some .illegalInstruction) ∧
    (∀ r : RegIdx, (portsOut i s).debugRegs[r] = readReg s r) ∧
    (portsOut i s).debugPc = s.pc ∧ (portsOut i s).debugC = s.c ∧ (portsOut i s).debugZ = s.z ∧
    ((portsOut i s).dmemWe = true ↔ i.rst = false ∧ i.stepEn = true ∧ executes s ["SW"]) ∧
    ((portsOut i s).dmemAddr ≠ none ↔ i.rst = false ∧ i.stepEn = true ∧ executes s ["LW", "SW"]) ∧
    (∀ (rs base : RegIdx) (off4 : Nibble), (portsOut i s).dmemAddr ≠ none →
      (decode (iFetch s.imem s.pc) = .legal (.lw rs base off4) →
        (portsOut i s).dmemAddr = some (effectiveAddress s base off4)) ∧
      (decode (iFetch s.imem s.pc) = .legal (.sw rs base off4) →
        (portsOut i s).dmemAddr = some (effectiveAddress s base off4) ∧ (portsOut i s).dmemWdata = some (readReg s rs))) ∧
    ((portsOut i s).dmemWe = true →
      ∃ a v, (portsOut i s).dmemAddr = some a ∧ (portsOut i s).dmemWdata = some v ∧ memRead (boundary i s) a = v ∧
        sameDmemExcept a s (boundary i s)) ∧
    ((portsOut i s).dmemWe = false → sameDmem s (boundary i s))

/-- What the inputs do at an instruction boundary: reset gives the launch state with both memories kept, a low step enable starts
no instruction, and a high one makes the step of the machine, from the port inputs alone, when the read data is what the memories
hold (R89, R187; that reset wins over the step enable is the model's choice, log entry 11). -/
def Obligations.BoundaryInputsActBetweenSteps : Prop :=
  ∀ (i : PortsIn) (s : State),
    (i.rst = true → boundary i s = launch s.imem s.dmem i.entryPc s) ∧
    (i.rst = false → i.stepEn = false → boundary i s = s) ∧
    (i.rst = false → i.stepEn = true → memoriesAnswer i s = true → step s = .next (boundary i s))
end

