-- ==== Sys2Proof/Laws/Encoding.lean ====
section
/-! SUPPORT. What the field extractor reads from a word put together from its fields, and the words an instruction's encoding
starts with. -/

namespace Sys2Proof

@[simp] theorem regOf_fieldOf (r : RegIdx) : regOf (fieldOf r) = r := rfl

@[simp] theorem fieldOf_regOf (n : Nibble) : fieldOf (regOf n) = n := rfl

/-- The four nibbles of a word (R33, R51). -/
theorem nibbles_of_wordOfNibbles (n3 n2 n1 n0 : Nibble) :
    (wordOfNibbles n3 n2 n1 n0).extractLsb' 12 4 = n3 ∧ (wordOfNibbles n3 n2 n1 n0).extractLsb' 8 4 = n2 ∧
    (wordOfNibbles n3 n2 n1 n0).extractLsb' 4 4 = n1 ∧ (wordOfNibbles n3 n2 n1 n0).extractLsb' 0 4 = n0 := by
  unfold wordOfNibbles
  refine ⟨?_, ?_, ?_, ?_⟩ <;>
  · apply BitVec.eq_of_getLsbD_eq
    intro i hi
    rw [BitVec.getLsbD_extractLsb']
    simp only [BitVec.getLsbD_append, hi, decide_true, Bool.true_and]
    interval_cases i <;> simp

/-- A word is made of its nibbles. -/
theorem wordOfNibbles_of_nibbles (w : Word16) :
    wordOfNibbles (w.extractLsb' 12 4) (w.extractLsb' 8 4) (w.extractLsb' 4 4) (w.extractLsb' 0 4) = w := by
  unfold wordOfNibbles
  apply BitVec.eq_of_getLsbD_eq
  intro i hi
  simp only [BitVec.getLsbD_append, BitVec.getLsbD_extractLsb']
  interval_cases i <;> simp

/-- The fields of a word of four nibbles. -/
theorem extractFields_wordOfNibbles (n3 n2 n1 n0 : Nibble) :
    (extractFields (wordOfNibbles n3 n2 n1 n0)).op = n3 ∧ (extractFields (wordOfNibbles n3 n2 n1 n0)).fa = n2 ∧
    (extractFields (wordOfNibbles n3 n2 n1 n0)).fb = n1 ∧ (extractFields (wordOfNibbles n3 n2 n1 n0)).fc = n0 :=
  nibbles_of_wordOfNibbles n3 n2 n1 n0

/-- The two wide fields and the link bit of a word of four nibbles (R51). -/
theorem wideFields_wordOfNibbles (n3 n2 n1 n0 : Nibble) :
    (extractFields (wordOfNibbles n3 n2 n1 n0)).off8 = n1 ++ n0 ∧
    (extractFields (wordOfNibbles n3 n2 n1 n0)).target12 = n2 ++ n1 ++ n0 ∧
    (extractFields (wordOfNibbles n3 n2 n1 n0)).link = n3.getLsbD 0 := by
  simp only [extractFields, wordOfNibbles]
  refine ⟨?_, ?_, ?_⟩
  · apply BitVec.eq_of_getLsbD_eq
    intro i hi
    rw [BitVec.getLsbD_extractLsb']
    simp only [BitVec.getLsbD_append, hi, decide_true, Bool.true_and]
    interval_cases i <;> simp
  · apply BitVec.eq_of_getLsbD_eq
    intro i hi
    rw [BitVec.getLsbD_extractLsb']
    simp only [BitVec.getLsbD_append, hi, decide_true, Bool.true_and]
    interval_cases i <;> simp
  · simp only [BitVec.getLsbD_append]
    simp

/-- A word of four nibbles as a number. -/
theorem wordOfNibbles_toNat (n3 n2 n1 n0 : Nibble) :
    (wordOfNibbles n3 n2 n1 n0).toNat = 4096 * n3.toNat + 256 * n2.toNat + 16 * n1.toNat + n0.toNat := by
  simp only [wordOfNibbles, BitVec.toNat_append]
  have := n3.isLt; have := n2.isLt; have := n1.isLt; have := n0.isLt
  rw [← Nat.shiftLeft_add_eq_or_of_lt (by omega), ← Nat.shiftLeft_add_eq_or_of_lt (by omega),
    ← Nat.shiftLeft_add_eq_or_of_lt (by omega)]
  simp only [Nat.shiftLeft_eq]
  omega

/-- The fields of a B-format word (R57). -/
theorem extractFields_encodeBranch (op : Nibble) (rs : RegIdx) (off8 : BitVec 8) :
    (extractFields (encodeBranch op rs off8)).op = op ∧ (extractFields (encodeBranch op rs off8)).fa = fieldOf rs ∧
    (extractFields (encodeBranch op rs off8)).off8 = off8 := by
  simp only [extractFields, encodeBranch]
  refine ⟨?_, ?_, ?_⟩ <;>
  · apply BitVec.eq_of_getLsbD_eq
    intro i hi
    rw [BitVec.getLsbD_extractLsb']
    simp only [BitVec.getLsbD_append, hi, decide_true, Bool.true_and]
    interval_cases i <;> simp

/-- The fields of a J-format word (R58): the opcode is 0xE or 0xF by the link bit. -/
theorem extractFields_encodeJump (link : Bool) (target12 : BitVec 12) :
    (extractFields (encodeJump link target12)).op = (if link then 0xF else 0xE) ∧
    (extractFields (encodeJump link target12)).link = link ∧
    (extractFields (encodeJump link target12)).target12 = target12 := by
  simp only [extractFields, encodeJump]
  refine ⟨?_, ?_, ?_⟩
  · apply BitVec.eq_of_getLsbD_eq
    intro i hi
    rw [BitVec.getLsbD_extractLsb']
    simp only [BitVec.getLsbD_append, hi, decide_true, Bool.true_and]
    interval_cases i <;> cases link <;> simp
  · simp only [BitVec.getLsbD_append]
    cases link <;> simp
  · apply BitVec.eq_of_getLsbD_eq
    intro i hi
    rw [BitVec.getLsbD_extractLsb']
    simp only [BitVec.getLsbD_append, hi, decide_true, Bool.true_and]
    simp [hi]

/-- The opcode bits a word shares with every word of the same first nibble. -/
theorem primary_mask (n3 n2 n1 n0 : Nibble) : wordOfNibbles n3 n2 n1 n0 &&& 0xF000 = wordOfNibbles n3 0 0 0 := by
  unfold wordOfNibbles
  apply BitVec.eq_of_getLsbD_eq
  intro i hi
  simp only [BitVec.getLsbD_append, BitVec.getLsbD_and]
  interval_cases i <;> simp

/-- The opcode and function bits of a word of the extended group. -/
theorem extended_mask (n3 n2 n1 n0 : Nibble) : wordOfNibbles n3 n2 n1 n0 &&& 0xF00F = wordOfNibbles n3 0 0 n0 := by
  unfold wordOfNibbles
  apply BitVec.eq_of_getLsbD_eq
  intro i hi
  simp only [BitVec.getLsbD_append, BitVec.getLsbD_and]
  interval_cases i <;> simp

theorem branch_mask (op : Nibble) (rs : RegIdx) (off8 : BitVec 8) :
    encodeBranch op rs off8 &&& 0xF000 = wordOfNibbles op 0 0 0 := by
  unfold encodeBranch wordOfNibbles
  apply BitVec.eq_of_getLsbD_eq
  intro i hi
  simp only [BitVec.getLsbD_append, BitVec.getLsbD_and]
  interval_cases i <;> simp

theorem jump_mask (link : Bool) (target12 : BitVec 12) :
    encodeJump link target12 &&& 0xF000 = if link then 0xF000 else 0xE000 := by
  unfold encodeJump
  apply BitVec.eq_of_getLsbD_eq
  intro i hi
  simp only [BitVec.getLsbD_append, BitVec.getLsbD_and]
  interval_cases i <;> cases link <;> simp

end Sys2Proof
end

