-- ==== Sys2Proof/Laws/State.lean ====
section
/-! SUPPORT. What each named update does to each field of the state. -/

namespace Sys2Proof.Machine

/-! ## writePc -/

@[simp] theorem writePc_regs (t : PcAddr) (s : State) : (writePc t s).regs = s.regs := rfl
@[simp] theorem writePc_pc (t : PcAddr) (s : State) : (writePc t s).pc = t := rfl
@[simp] theorem writePc_c (t : PcAddr) (s : State) : (writePc t s).c = s.c := rfl
@[simp] theorem writePc_z (t : PcAddr) (s : State) : (writePc t s).z = s.z := rfl
@[simp] theorem writePc_run (t : PcAddr) (s : State) : (writePc t s).run = s.run := rfl
@[simp] theorem writePc_fault (t : PcAddr) (s : State) : (writePc t s).fault = s.fault := rfl
@[simp] theorem writePc_dmem (t : PcAddr) (s : State) : (writePc t s).dmem = s.dmem := rfl
@[simp] theorem writePc_imem (t : PcAddr) (s : State) : (writePc t s).imem = s.imem := rfl

/-! ## advancePc -/

@[simp] theorem advancePc_regs (s : State) : (advancePc s).regs = s.regs := rfl
@[simp] theorem advancePc_pc (s : State) : (advancePc s).pc = nextPc s.pc := rfl
@[simp] theorem advancePc_c (s : State) : (advancePc s).c = s.c := rfl
@[simp] theorem advancePc_z (s : State) : (advancePc s).z = s.z := rfl
@[simp] theorem advancePc_run (s : State) : (advancePc s).run = s.run := rfl
@[simp] theorem advancePc_fault (s : State) : (advancePc s).fault = s.fault := rfl
@[simp] theorem advancePc_dmem (s : State) : (advancePc s).dmem = s.dmem := rfl
@[simp] theorem advancePc_imem (s : State) : (advancePc s).imem = s.imem := rfl

/-! ## writeFlags -/

@[simp] theorem writeFlags_regs (c z : Bool) (s : State) : (writeFlags c z s).regs = s.regs := rfl
@[simp] theorem writeFlags_pc (c z : Bool) (s : State) : (writeFlags c z s).pc = s.pc := rfl
@[simp] theorem writeFlags_c (c z : Bool) (s : State) : (writeFlags c z s).c = c := rfl
@[simp] theorem writeFlags_z (c z : Bool) (s : State) : (writeFlags c z s).z = z := rfl
@[simp] theorem writeFlags_run (c z : Bool) (s : State) : (writeFlags c z s).run = s.run := rfl
@[simp] theorem writeFlags_fault (c z : Bool) (s : State) : (writeFlags c z s).fault = s.fault := rfl
@[simp] theorem writeFlags_dmem (c z : Bool) (s : State) : (writeFlags c z s).dmem = s.dmem := rfl
@[simp] theorem writeFlags_imem (c z : Bool) (s : State) : (writeFlags c z s).imem = s.imem := rfl

/-! ## memWrite -/

@[simp] theorem memWrite_regs (a : DataAddr) (v : Nibble) (s : State) : (memWrite a v s).regs = s.regs := rfl
@[simp] theorem memWrite_pc (a : DataAddr) (v : Nibble) (s : State) : (memWrite a v s).pc = s.pc := rfl
@[simp] theorem memWrite_c (a : DataAddr) (v : Nibble) (s : State) : (memWrite a v s).c = s.c := rfl
@[simp] theorem memWrite_z (a : DataAddr) (v : Nibble) (s : State) : (memWrite a v s).z = s.z := rfl
@[simp] theorem memWrite_run (a : DataAddr) (v : Nibble) (s : State) : (memWrite a v s).run = s.run := rfl
@[simp] theorem memWrite_fault (a : DataAddr) (v : Nibble) (s : State) : (memWrite a v s).fault = s.fault := rfl
@[simp] theorem memWrite_dmem (a : DataAddr) (v : Nibble) (s : State) : (memWrite a v s).dmem = writeCell s.dmem a.toNat v := rfl
@[simp] theorem memWrite_imem (a : DataAddr) (v : Nibble) (s : State) : (memWrite a v s).imem = s.imem := rfl

/-! ## haltRun -/

@[simp] theorem haltRun_regs (s : State) : (haltRun s).regs = s.regs := rfl
@[simp] theorem haltRun_pc (s : State) : (haltRun s).pc = s.pc := rfl
@[simp] theorem haltRun_c (s : State) : (haltRun s).c = s.c := rfl
@[simp] theorem haltRun_z (s : State) : (haltRun s).z = s.z := rfl
@[simp] theorem haltRun_run (s : State) : (haltRun s).run = .halted := rfl
@[simp] theorem haltRun_fault (s : State) : (haltRun s).fault = s.fault := rfl
@[simp] theorem haltRun_dmem (s : State) : (haltRun s).dmem = s.dmem := rfl
@[simp] theorem haltRun_imem (s : State) : (haltRun s).imem = s.imem := rfl

/-! ## raiseIllegal -/

@[simp] theorem raiseIllegal_regs (s : State) : (raiseIllegal s).regs = s.regs := rfl
@[simp] theorem raiseIllegal_pc (s : State) : (raiseIllegal s).pc = s.pc := rfl
@[simp] theorem raiseIllegal_c (s : State) : (raiseIllegal s).c = s.c := rfl
@[simp] theorem raiseIllegal_z (s : State) : (raiseIllegal s).z = s.z := rfl
@[simp] theorem raiseIllegal_run (s : State) : (raiseIllegal s).run = .halted := rfl
@[simp] theorem raiseIllegal_fault (s : State) : (raiseIllegal s).fault = some .illegalInstruction := rfl
@[simp] theorem raiseIllegal_dmem (s : State) : (raiseIllegal s).dmem = s.dmem := rfl
@[simp] theorem raiseIllegal_imem (s : State) : (raiseIllegal s).imem = s.imem := rfl

/-! ## resetCore -/

@[simp] theorem resetCore_regs (entry : PcAddr) (s : State) : (resetCore entry s).regs = Vector.replicate 16 0 := rfl
@[simp] theorem resetCore_pc (entry : PcAddr) (s : State) : (resetCore entry s).pc = entry := rfl
@[simp] theorem resetCore_c (entry : PcAddr) (s : State) : (resetCore entry s).c = false := rfl
@[simp] theorem resetCore_z (entry : PcAddr) (s : State) : (resetCore entry s).z = false := rfl
@[simp] theorem resetCore_run (entry : PcAddr) (s : State) : (resetCore entry s).run = .running := rfl
@[simp] theorem resetCore_fault (entry : PcAddr) (s : State) : (resetCore entry s).fault = none := rfl
@[simp] theorem resetCore_dmem (entry : PcAddr) (s : State) : (resetCore entry s).dmem = s.dmem := rfl
@[simp] theorem resetCore_imem (entry : PcAddr) (s : State) : (resetCore entry s).imem = s.imem := rfl

/-! ## writeReg -/

@[simp] theorem writeReg_pc (i : RegIdx) (v : Nibble) (s : State) : (writeReg i v s).pc = s.pc := by
  unfold writeReg; split <;> rfl
@[simp] theorem writeReg_c (i : RegIdx) (v : Nibble) (s : State) : (writeReg i v s).c = s.c := by
  unfold writeReg; split <;> rfl
@[simp] theorem writeReg_z (i : RegIdx) (v : Nibble) (s : State) : (writeReg i v s).z = s.z := by
  unfold writeReg; split <;> rfl
@[simp] theorem writeReg_run (i : RegIdx) (v : Nibble) (s : State) : (writeReg i v s).run = s.run := by
  unfold writeReg; split <;> rfl
@[simp] theorem writeReg_fault (i : RegIdx) (v : Nibble) (s : State) : (writeReg i v s).fault = s.fault := by
  unfold writeReg; split <;> rfl
@[simp] theorem writeReg_dmem (i : RegIdx) (v : Nibble) (s : State) : (writeReg i v s).dmem = s.dmem := by
  unfold writeReg; split <;> rfl
@[simp] theorem writeReg_imem (i : RegIdx) (v : Nibble) (s : State) : (writeReg i v s).imem = s.imem := by
  unfold writeReg; split <;> rfl

@[simp] theorem writeReg_zero (v : Nibble) (s : State) : writeReg 0 v s = s := rfl

/-! ## What a register or a cell of the data space reads as after an update that does not write it -/

@[simp] theorem readReg_writePc (t : PcAddr) (s : State) (i : RegIdx) : readReg (writePc t s) i = readReg s i := rfl
@[simp] theorem memRead_writePc (t : PcAddr) (s : State) (a : DataAddr) : memRead (writePc t s) a = memRead s a := rfl
@[simp] theorem readReg_advancePc (s : State) (i : RegIdx) : readReg (advancePc s) i = readReg s i := rfl
@[simp] theorem memRead_advancePc (s : State) (a : DataAddr) : memRead (advancePc s) a = memRead s a := rfl
@[simp] theorem readReg_writeFlags (c z : Bool) (s : State) (i : RegIdx) : readReg (writeFlags c z s) i = readReg s i := rfl
@[simp] theorem memRead_writeFlags (c z : Bool) (s : State) (a : DataAddr) : memRead (writeFlags c z s) a = memRead s a := rfl
@[simp] theorem readReg_memWrite (a : DataAddr) (v : Nibble) (s : State) (i : RegIdx) : readReg (memWrite a v s) i = readReg s i := rfl
@[simp] theorem readReg_haltRun (s : State) (i : RegIdx) : readReg (haltRun s) i = readReg s i := rfl
@[simp] theorem memRead_haltRun (s : State) (a : DataAddr) : memRead (haltRun s) a = memRead s a := rfl
@[simp] theorem readReg_raiseIllegal (s : State) (i : RegIdx) : readReg (raiseIllegal s) i = readReg s i := rfl
@[simp] theorem memRead_raiseIllegal (s : State) (a : DataAddr) : memRead (raiseIllegal s) a = memRead s a := rfl
@[simp] theorem memRead_resetCore (entry : PcAddr) (s : State) (a : DataAddr) : memRead (resetCore entry s) a = memRead s a := rfl

@[simp] theorem memRead_writeReg (i : RegIdx) (v : Nibble) (s : State) (a : DataAddr) :
    memRead (writeReg i v s) a = memRead s a := by
  simp [memRead]

end Sys2Proof.Machine
end

