-- ==== Sys2Proof/Laws/Memory.lean ====
section
/-! SUPPORT. The memory laws: a read after a write, and the canonical form that every operation keeps. -/

namespace Sys2Proof.Machine

theorem readCell_eraseCell (m : Memory) (a b : Nat) :
    readCell (eraseCell m a) b = if b = a then Config.unlistedCell else readCell m b := by
  induction m with
  | nil => simp [eraseCell, readCell]
  | cons e rest ih =>
    obtain ⟨k, v⟩ := e
    simp only [eraseCell] at ih ⊢
    by_cases hk : k = a
    · subst hk
      simp only [bne_self_eq_false, Bool.false_eq_true, not_false_eq_true, List.filter_cons_of_neg, ih, readCell]
      by_cases hb : b = k
      · simp [hb]
      · simp [hb, Ne.symm hb]
    · simp only [bne_iff_ne, ne_eq, hk, not_false_eq_true, List.filter_cons_of_pos, readCell, ih]
      by_cases hb : k = b
      · subst hb; simp [hk]
      · simp [hb]

theorem readCell_insertCell_self (m : Memory) (a : Nat) (v : Nibble) (h : ∀ e ∈ m, e.1 ≠ a) :
    readCell (insertCell m a v) a = v := by
  induction m with
  | nil => simp [insertCell, readCell]
  | cons e rest ih =>
    obtain ⟨k, b⟩ := e
    have hk : k ≠ a := h (k, b) (by simp)
    have ih := ih fun e he => h e (by simp [he])
    unfold insertCell
    split <;> simp [readCell, hk, ih]

theorem readCell_insertCell_ne (m : Memory) (a b : Nat) (v : Nibble) (h : b ≠ a) :
    readCell (insertCell m a v) b = readCell m b := by
  induction m with
  | nil => simp [insertCell, readCell, Ne.symm h]
  | cons e rest ih =>
    obtain ⟨k, w⟩ := e
    unfold insertCell
    split
    · simp [readCell, Ne.symm h]
    · simp [readCell, ih]

theorem ne_of_mem_eraseCell {m : Memory} {a : Nat} {e : Host.Cell} (h : e ∈ eraseCell m a) : e.1 ≠ a := by
  simpa using (List.mem_filter.mp h).2

/-- What a cell reads as after a write, in any memory, canonical or not. -/
theorem readCell_writeCell (m : Memory) (a b : Nat) (v : Nibble) :
    readCell (writeCell m a v) b = if b = a then v else readCell m b := by
  unfold writeCell
  by_cases hv : v = Config.unlistedCell
  · simp [hv, readCell_eraseCell]
  · rw [if_neg hv]
    by_cases hb : b = a
    · subst hb
      simp [readCell_insertCell_self _ _ _ fun e he => ne_of_mem_eraseCell he]
    · simp [hb, readCell_insertCell_ne _ _ _ _ hb, readCell_eraseCell]

theorem memRead_memWrite (a b : DataAddr) (v : Nibble) (s : State) :
    memRead (memWrite a v s) b = if b = a then v else memRead s b := by
  simp only [memRead, memWrite_dmem, readCell_writeCell]
  exact if_congr (BitVec.toNat_inj) rfl rfl

/-! ## The canonical form -/

/-- The check on one listed cell. -/
def cellOk (size : Nat) (e : Host.Cell) : Prop :=
  e.1 < size ∧ e.2.toNat < 16 ∧ e.2.setWidth 4 ≠ Config.unlistedCell

theorem Memory.wf_iff (size : Nat) (m : Memory) :
    Memory.wf size m = true ↔ m.Pairwise (fun e f => e.1 < f.1) ∧ ∀ e ∈ m, cellOk size e := by
  simp [Memory.wf, cellOk, and_assoc]

theorem Memory.wf_nil (size : Nat) : Memory.wf size [] = true := by
  simp [Memory.wf]

theorem Memory.wf_eraseCell {size : Nat} {m : Memory} (h : Memory.wf size m = true) (a : Nat) :
    Memory.wf size (eraseCell m a) = true := by
  rw [Memory.wf_iff] at h ⊢
  exact ⟨h.1.filter _, fun e he => h.2 e (List.mem_filter.mp he).1⟩

theorem mem_insertCell {m : Memory} {a : Nat} {v : Nibble} {e : Host.Cell} :
    e ∈ insertCell m a v ↔ e = (a, v.setWidth 8) ∨ e ∈ m := by
  induction m with
  | nil => simp [insertCell]
  | cons f rest ih =>
    obtain ⟨k, w⟩ := f
    unfold insertCell
    split
    · simp
    · simp only [List.mem_cons, ih]
      exact or_left_comm

theorem pairwise_insertCell {m : Memory} (h : m.Pairwise fun e f => e.1 < f.1) (a : Nat) (v : Nibble)
    (ha : ∀ e ∈ m, e.1 ≠ a) : (insertCell m a v).Pairwise fun e f => e.1 < f.1 := by
  induction m with
  | nil => simp [insertCell]
  | cons f rest ih =>
    obtain ⟨k, w⟩ := f
    have hk : k ≠ a := ha (k, w) (by simp)
    obtain ⟨hlt, hrest⟩ := List.pairwise_cons.mp h
    unfold insertCell
    split
    · next hak =>
      refine List.pairwise_cons.mpr ⟨fun e he => ?_, h⟩
      rcases List.mem_cons.mp he with rfl | he
      · exact hak
      · exact Nat.lt_trans hak (hlt e he)
    · next hak =>
      refine List.pairwise_cons.mpr ⟨fun e he => ?_, ih hrest fun e he => ha e (by simp [he])⟩
      rcases mem_insertCell.mp he with rfl | he
      · show k < a
        omega
      · exact hlt e he

/-- A write keeps the canonical form. -/
theorem Memory.wf_writeCell {size : Nat} {m : Memory} (h : Memory.wf size m = true) {a : Nat} (ha : a < size) (v : Nibble) :
    Memory.wf size (writeCell m a v) = true := by
  unfold writeCell
  split
  · exact Memory.wf_eraseCell h a
  · next hv =>
    have he := (Memory.wf_iff _ _).mp (Memory.wf_eraseCell h a)
    refine (Memory.wf_iff _ _).mpr ⟨pairwise_insertCell he.1 a v fun e he => ne_of_mem_eraseCell he, fun e hm => ?_⟩
    rcases mem_insertCell.mp hm with rfl | hm
    · refine ⟨ha, ?_, ?_⟩
      · have := v.isLt
        simp only [BitVec.toNat_setWidth]
        omega
      · rwa [BitVec.setWidth_setWidth_of_le _ (by decide), BitVec.setWidth_eq]
    · exact he.2 e hm

/-- The canonical form survives the store of SW. -/
theorem memWrite_wf {s : State} (h : Memory.wf Config.dmemSize s.dmem = true) (a : DataAddr) (v : Nibble) :
    Memory.wf Config.dmemSize (memWrite a v s).dmem = true :=
  Memory.wf_writeCell h a.isLt v

/-- Both memories of the reset state are canonical. -/
theorem reset_memories_wf :
    Memory.wf Config.dmemSize State.reset.dmem = true ∧ Memory.wf Config.imemSize State.reset.imem = true :=
  ⟨Memory.wf_nil _, Memory.wf_nil _⟩

/-- A canonical memory lists nothing below its first entry. -/
theorem readCell_of_lt {m : Memory} {a : Nat} (h : ∀ e ∈ m, a < e.1) : readCell m a = Config.unlistedCell := by
  induction m with
  | nil => rfl
  | cons e rest ih =>
    obtain ⟨k, b⟩ := e
    have hk : a < k := h (k, b) (by simp)
    simp [readCell, Nat.ne_of_gt hk, ih fun e he => h e (by simp [he])]

end Sys2Proof.Machine
end

