-- ==== Sys2Proof/Laws/Ops.lean ====
section
/-! SUPPORT. One lemma for each shared operation that says what it does: registers, `pc`, the link triple, sign extension,
the ALU and its commit. -/

namespace Sys2Proof.Machine

@[simp] theorem readReg_zero (s : State) : readReg s 0 = 0 := rfl

theorem readReg_of_ne {i : RegIdx} (h : i ≠ 0) (s : State) : readReg s i = s.regs[i] := if_neg h

/-- What a register reads as after a register write: the write discipline of R12 and the zero of R11. -/
theorem readReg_writeReg (i j : RegIdx) (v : Nibble) (s : State) :
    readReg (writeReg i v s) j = if j = i ∧ j ≠ 0 then v else readReg s j := by
  by_cases hj : j = 0
  · subst hj; simp
  · rw [readReg_of_ne hj, readReg_of_ne hj]
    unfold writeReg
    by_cases hi : i = 0
    · subst hi; simp [hj]
    · rw [if_neg hi]
      by_cases h : j = i
      · subst h; simp [hj]
      · have : (i : Nat) ≠ (j : Nat) := fun e => h (Fin.ext e.symm)
        simp [h, this]

/-- The cell of register 0 is never written (R12). -/
theorem writeReg_cell_zero (i : RegIdx) (v : Nibble) (s : State) :
    (writeReg i v s).regs[0] = s.regs[0] := by
  unfold writeReg
  by_cases hi : i = 0
  · simp [hi]
  · have : (i : Nat) ≠ 0 := fun e => hi (Fin.ext e)
    simp [hi, this]

theorem nextPc_eq (pc : PcAddr) : nextPc pc = pc + 4 := by
  apply BitVec.eq_of_toNat_eq
  simp [nextPc, Config.instrNibbles, BitVec.toNat_add]

theorem sext4_range (v : Nibble) : -8 ≤ sext4 v ∧ sext4 v ≤ 7 := by
  revert v; decide

theorem sext8_range (v : BitVec 8) : -128 ≤ sext8 v ∧ sext8 v ≤ 127 := by
  have := v.isLt
  unfold sext8
  split <;> omega

/-- The sign of a nibble is its top bit (R95). -/
theorem signed4_neg_iff (v : Nibble) : signed4 v < 0 ↔ v.getLsbD 3 = true := by
  revert v; decide

theorem sext4_eq_toInt (v : Nibble) : sext4 v = v.toInt := by
  revert v; decide

/-- What the link triple reads as after JAL's register writes. -/
theorem readReg_writeLink (ret : PcAddr) (s : State) (i : RegIdx) :
    readReg (writeLink ret s) i =
      if i = 13 then ret.extractLsb' 8 4
      else if i = 14 then ret.extractLsb' 4 4
      else if i = 15 then ret.extractLsb' 0 4 else readReg s i := by
  simp only [writeLink, readReg_writeReg, Config.linkHigh, Config.linkMid, Config.linkLow]
  by_cases h13 : i = 13
  · subst h13; simp
  · by_cases h14 : i = 14
    · subst h14; simp
    · by_cases h15 : i = 15
      · subst h15; simp
      · simp [h13, h14, h15]

@[simp] theorem writeLink_pc (ret : PcAddr) (s : State) : (writeLink ret s).pc = s.pc := by simp [writeLink]
@[simp] theorem writeLink_c (ret : PcAddr) (s : State) : (writeLink ret s).c = s.c := by simp [writeLink]
@[simp] theorem writeLink_z (ret : PcAddr) (s : State) : (writeLink ret s).z = s.z := by simp [writeLink]
@[simp] theorem writeLink_run (ret : PcAddr) (s : State) : (writeLink ret s).run = s.run := by simp [writeLink]
@[simp] theorem writeLink_fault (ret : PcAddr) (s : State) : (writeLink ret s).fault = s.fault := by simp [writeLink]
@[simp] theorem writeLink_dmem (ret : PcAddr) (s : State) : (writeLink ret s).dmem = s.dmem := by simp [writeLink]
@[simp] theorem writeLink_imem (ret : PcAddr) (s : State) : (writeLink ret s).imem = s.imem := by simp [writeLink]

theorem writeLink_cell_zero (ret : PcAddr) (s : State) :
    (writeLink ret s).regs[0] = s.regs[0] := by
  simp only [writeLink, writeReg_cell_zero]

/-- The base pair as a number (R120). -/
theorem baseAddress_toNat (s : State) (base : RegIdx) :
    (baseAddress s base).toNat = 16 * (readReg s base).toNat + (readReg s (base + 1)).toNat := by
  change (readReg s base ++ readReg s (base + 1)).toNat = _
  rw [BitVec.toNat_append, ← Nat.shiftLeft_add_eq_or_of_lt (BitVec.isLt _), Nat.shiftLeft_eq]
  omega

/-- The effective address as a number: the sum wraps in both directions (R121). -/
theorem effectiveAddress_toNat (s : State) (base : RegIdx) (off4 : Nibble) :
    ((effectiveAddress s base off4).toNat : Int) = ((baseAddress s base).toNat + sext4 off4) % 256 := by
  unfold effectiveAddress
  rw [BitVec.toNat_ofInt]
  omega

/-- The address in three registers as a number (R142). -/
theorem registerTriple_toNat (s : State) (rs : RegIdx) :
    (registerTriple s rs).toNat =
      256 * (readReg s rs).toNat + 16 * (readReg s (rs + 1)).toNat + (readReg s (rs + 2)).toNat := by
  change (readReg s rs ++ readReg s (rs + 1) ++ readReg s (rs + 2)).toNat = _
  simp only [BitVec.toNat_append]
  rw [← Nat.shiftLeft_add_eq_or_of_lt (BitVec.isLt _), ← Nat.shiftLeft_add_eq_or_of_lt (BitVec.isLt _)]
  simp only [Nat.shiftLeft_eq]
  omega

/-- The link triple is the register triple of register 13 (R13, R142). -/
theorem linkTriple_eq (s : State) : linkTriple s = registerTriple s 13 := rfl

/-- The target of a taken branch as a number (R130). -/
theorem branchTarget_toNat (pc : PcAddr) (off8 : BitVec 8) :
    ((branchTarget pc off8).toNat : Int) = ((pc.toNat : Int) + 4 * sext8 off8) % 4096 := by
  unfold branchTarget
  rw [BitVec.toNat_ofInt]
  simp only [Config.instrNibbles]
  omega

/-- Everything a branch does: it moves `pc` and nothing else (R130). -/
theorem branchIf_spec (taken : Bool) (off8 : BitVec 8) (s : State) :
    branchIf taken off8 s = writePc (if taken then branchTarget s.pc off8 else nextPc s.pc) s := by
  cases taken <;> rfl

/-- JAL's target drops bit 11 (R61, R141). -/
theorem jalTarget_toNat (target12 : BitVec 12) : (jalTarget target12).toNat = target12.toNat % 2048 := by
  unfold jalTarget Config.jalTargetMask
  rw [BitVec.toNat_and]
  exact Nat.and_two_pow_sub_one_eq_mod _ 11

/-- The ALU's result as a number, for each function (R91). -/
theorem alu_r_add (a b : Nibble) (cin : Bool) : (alu .add a b cin).r.toNat = (a.toNat + b.toNat + cin.toNat) % 16 := by
  simp [alu, wideAdd]

theorem alu_c_add (a b : Nibble) (cin : Bool) :
    (alu .add a b cin).c = decide (a.toNat + b.toNat + cin.toNat > 15) := rfl

theorem alu_r_sub (a b : Nibble) (cin : Bool) :
    ((alu .sub a b cin).r.toNat : Int) = ((a.toNat : Int) - b.toNat - cin.toNat) % 16 := by
  simp [alu, wideSub]
  omega

theorem alu_c_sub (a b : Nibble) (cin : Bool) :
    (alu .sub a b cin).c = decide ((a.toNat : Int) - b.toNat - cin.toNat < 0) := rfl

/-- The zero bit of every function is that of its result (R91). -/
theorem alu_z (fn : AluFn) (a b : Nibble) (cin : Bool) : (alu fn a b cin).z = decide ((alu fn a b cin).r = 0) := by
  cases fn <;> rfl

/-- Every function but addition and subtraction clears the carry and ignores the carry in (R91, R94). -/
theorem alu_logical {fn : AluFn} (ha : fn ≠ .add) (hs : fn ≠ .sub) (a b : Nibble) (cin : Bool) :
    (alu fn a b cin).c = false ∧ (alu fn a b cin).r = (alu fn a b false).r := by
  cases fn <;> simp_all [alu]

/-- Everything the commit of an ALU instruction does (R17, R84, R86). -/
theorem commitAlu_spec (rd : RegIdx) (o : AluOut) (s : State) :
    (∀ i, readReg (commitAlu rd o s) i = if i = rd ∧ i ≠ 0 then o.r else readReg s i) ∧
    (commitAlu rd o s).pc = nextPc s.pc ∧ (commitAlu rd o s).c = o.c ∧ (commitAlu rd o s).z = o.z ∧
    (commitAlu rd o s).run = s.run ∧ (commitAlu rd o s).fault = s.fault ∧ (commitAlu rd o s).dmem = s.dmem ∧
    (commitAlu rd o s).imem = s.imem := by
  refine ⟨fun i => ?_, ?_⟩
  · simp [commitAlu, readReg_writeReg]
  · simp [commitAlu]

end Sys2Proof.Machine
end

