-- ==== Sys2Proof/Laws/PerInstr.lean ====
section
/-! SUPPORT. The family TableMatch: the encoding of a well-formed instruction matches its row of the opcode table. -/

namespace Sys2Proof.Laws

/-- The word of a well-formed instruction has the fixed bits of its row of the opcode table (R62, R63, R76). -/
def TableMatch.Statement (i : Instr) : Prop :=
  i.WellFormed = true → encode i &&& (tableRow i).mask = (tableRow i).pattern

theorem TableMatch.add (rd rs rt : RegIdx) : TableMatch.Statement (.add rd rs rt) := fun _ => primary_mask _ _ _ _
theorem TableMatch.sub (rd rs rt : RegIdx) : TableMatch.Statement (.sub rd rs rt) := fun _ => primary_mask _ _ _ _
theorem TableMatch.and (rd rs rt : RegIdx) : TableMatch.Statement (.and rd rs rt) := fun _ => primary_mask _ _ _ _
theorem TableMatch.or (rd rs rt : RegIdx) : TableMatch.Statement (.or rd rs rt) := fun _ => primary_mask _ _ _ _
theorem TableMatch.xor (rd rs rt : RegIdx) : TableMatch.Statement (.xor rd rs rt) := fun _ => primary_mask _ _ _ _
theorem TableMatch.slt (rd rs rt : RegIdx) : TableMatch.Statement (.slt rd rs rt) := fun _ => primary_mask _ _ _ _
theorem TableMatch.ori (rd rs : RegIdx) (imm4 : Nibble) : TableMatch.Statement (.ori rd rs imm4) :=
  fun _ => primary_mask _ _ _ _
theorem TableMatch.lw (rs base : RegIdx) (off4 : Nibble) : TableMatch.Statement (.lw rs base off4) :=
  fun _ => primary_mask _ _ _ _
theorem TableMatch.sw (rs base : RegIdx) (off4 : Nibble) : TableMatch.Statement (.sw rs base off4) :=
  fun _ => primary_mask _ _ _ _
theorem TableMatch.beqz (rs : RegIdx) (off8 : BitVec 8) : TableMatch.Statement (.beqz rs off8) :=
  fun _ => branch_mask _ _ _
theorem TableMatch.bnez (rs : RegIdx) (off8 : BitVec 8) : TableMatch.Statement (.bnez rs off8) :=
  fun _ => branch_mask _ _ _
theorem TableMatch.bltz (rs : RegIdx) (off8 : BitVec 8) : TableMatch.Statement (.bltz rs off8) :=
  fun _ => branch_mask _ _ _
theorem TableMatch.bgez (rs : RegIdx) (off8 : BitVec 8) : TableMatch.Statement (.bgez rs off8) :=
  fun _ => branch_mask _ _ _
theorem TableMatch.j (link : Bool) (target12 : BitVec 12) : TableMatch.Statement (.j link target12) := fun h => by
  have hl : link = false := by simpa [Instr.WellFormed] using h
  subst hl
  exact jump_mask false target12
theorem TableMatch.jal (link : Bool) (target12 : BitVec 12) : TableMatch.Statement (.jal link target12) := fun h => by
  have hl : link = true := h
  subst hl
  exact jump_mask true target12
theorem TableMatch.adc (rd rs : RegIdx) : TableMatch.Statement (.adc rd rs) := fun _ => extended_mask _ _ _ _
theorem TableMatch.sbb (rd rs : RegIdx) : TableMatch.Statement (.sbb rd rs) := fun _ => extended_mask _ _ _ _
theorem TableMatch.jr (rs : RegIdx) : TableMatch.Statement (.jr rs) := fun _ => extended_mask _ _ _ _
theorem TableMatch.halt : TableMatch.Statement .halt := fun _ => extended_mask _ _ _ _

end Sys2Proof.Laws
end

