-- ==== Sys2Proof/Laws/Ports.lean ====
section
/-! SUPPORT. What the operations of the block's boundary can do. -/

namespace Sys2Proof.Machine

/-- When an instruction starts: `rst` low, `step_en` high, a Running machine. -/
theorem startsInstruction_iff (i : PortsIn) (s : State) :
    startsInstruction i s = true ↔ i.rst = false ∧ i.stepEn = true ∧ s.run = .running := by
  simp [startsInstruction, and_assoc]

/-- What the read data inputs are when the memories answer. -/
theorem memoriesAnswer_iff (i : PortsIn) (s : State) :
    memoriesAnswer i s = true ↔
      i.imemRdata = iFetch s.imem s.pc ∧ ∀ a, (portsOut i s).dmemAddr = some a → i.dmemRdata = memRead s a := by
  unfold memoriesAnswer
  rw [Bool.and_eq_true, decide_eq_true_eq]
  refine and_congr Iff.rfl ?_
  cases (portsOut i s).dmemAddr <;> simp

/-- Everything the data memory can do with the outputs: one store, or nothing. -/
theorem storeFromPorts_cases (o : PortsOut) (s : State) :
    (∃ a v, o.dmemWe = true ∧ o.dmemAddr = some a ∧ o.dmemWdata = some v ∧ storeFromPorts o s = memWrite a v s) ∨
      storeFromPorts o s = s := by
  unfold storeFromPorts
  split
  · next a v h1 h2 h3 => exact .inl ⟨a, v, h1, h2, h3, rfl⟩
  · exact .inr rfl

/-- The outputs make the store that the `DMEM` controls of the instruction that starts ask for. -/
theorem storeFromPorts_portsOut (i : PortsIn) (k : Controls) (s t : State) (h : activeDmem i s = k.dmem) :
    storeFromPorts (portsOut i s) t = storeUnder k s t := by
  cases hk : k.dmem <;> simp [storeFromPorts, portsOut, h, hk, storeData, dmemAddress, storeUnder]

@[simp] theorem regWriteUnder_dmem (k : Controls) (d : Option Nibble) (s t : State) :
    (regWriteUnder k d s t).dmem = t.dmem := by
  unfold regWriteUnder; repeat' split
  all_goals simp [writeLink]

@[simp] theorem flagsUnder_dmem (k : Controls) (s t : State) : (flagsUnder k s t).dmem = t.dmem := by
  unfold flagsUnder; split <;> rfl

@[simp] theorem runUnder_dmem (k : Controls) (s : State) : (runUnder k s).dmem = s.dmem := by
  unfold runUnder; split <;> rfl

/-- The CORE's part of the datapath stores nothing. -/
@[simp] theorem coreUnder_dmem (k : Controls) (d : Option Nibble) (s : State) : (coreUnder k d s).dmem = s.dmem := by
  simp [coreUnder]

end Sys2Proof.Machine
end

