-- ==== Sys2Proof/Laws/Step.lean ====
section
/-! SUPPORT. What a step can do, said once, and the fetch of a word that was placed. -/

namespace Sys2Proof.Machine

/-- Everything a step with its result can do (R80): nothing in a halted machine, the fault on an illegal word, and the
instruction's own outcome otherwise. -/
theorem engineStep_cases {s t : State} {r : StepResult} (h : engineStep s = .next (t, r)) :
    (s.run = .halted ∧ t = s ∧ r = ⟨true, s.fault⟩) ∨
    (s.run = .running ∧ (∃ w, decode (iFetch s.imem s.pc) = .illegal w) ∧ t = raiseIllegal s ∧
      r = ⟨true, some .illegalInstruction⟩) ∨
    (s.run = .running ∧ ∃ i, decode (iFetch s.imem s.pc) = .legal i ∧ exec i s = .next t ∧
      r = ⟨decide (t.run = .halted), none⟩) := by
  unfold engineStep at h
  split at h
  · next hr => cases h; exact .inl ⟨hr, rfl, rfl⟩
  · next hr =>
    split at h
    · next w hd => cases h; exact .inr (.inl ⟨hr, ⟨w, hd⟩, rfl, rfl⟩)
    · next i hd =>
      split at h
      · next s' he => cases h; exact .inr (.inr ⟨hr, i, hd, he, rfl⟩)
      · cases h
      · cases h

/-- The step is the state part of the step with its result. -/
theorem step_next_iff {s t : State} : step s = .next t ↔ ∃ r, engineStep s = .next (t, r) := by
  unfold step
  constructor
  · intro h
    generalize engineStep s = o at h ⊢
    rcases o with ⟨u, r⟩ | _ | _
    · exact ⟨r, by simpa [dropResult] using h⟩
    · simp [dropResult] at h
    · simp [dropResult] at h
  · rintro ⟨r, h⟩
    simp [h, dropResult]

/-- The host's iterated step makes one step first. -/
theorem core_run_succ (n : Nat) {s t : State} (h : step s = .next t) :
    Sys2Proof.core.run (n + 1) s = Sys2Proof.core.run n t := by
  have h' : Sys2Proof.core.step s = .next t := h
  exact (Host.Core.run.eq_2 Sys2Proof.core s n).trans (by rw [h'])

/-- What a fetch reads after a word was placed at the same address, whatever the alignment (R33, R34). -/
theorem iFetch_placeWord (w : Word16) (a : PcAddr) (m : Memory) : iFetch (placeWord w a m) a = w := by
  have e1 : a + 1 + 1 = a + 2 := by bv_omega
  have e2 : a + 2 + 1 = a + 3 := by bv_omega
  have h01 : a.toNat ≠ (a + 1).toNat := by bv_omega
  have h02 : a.toNat ≠ (a + 2).toNat := by bv_omega
  have h03 : a.toNat ≠ (a + 3).toNat := by bv_omega
  have h12 : (a + 1).toNat ≠ (a + 2).toNat := by bv_omega
  have h13 : (a + 1).toNat ≠ (a + 3).toNat := by bv_omega
  have h23 : (a + 2).toNat ≠ (a + 3).toNat := by bv_omega
  unfold iFetch placeWord
  simp only [nibblesOfWord, placeNibbles, readCell_writeCell, e1, e2, if_neg h01, if_neg h02, if_neg h03, if_neg h12,
    if_neg h13, if_neg h23, if_true]
  exact wordOfNibbles_of_nibbles w

/-- Placing nibbles keeps the canonical form of the instruction space. -/
theorem wf_placeNibbles (ns : List Nibble) (a : PcAddr) {m : Memory} (h : Memory.wf Config.imemSize m = true) :
    Memory.wf Config.imemSize (placeNibbles ns a m) = true := by
  induction ns generalizing a m with
  | nil => exact h
  | cons n ns ih => exact ih (a + 1) (Memory.wf_writeCell h a.isLt n)

/-- Placing an image keeps the canonical form of the instruction space. -/
theorem wf_placeImage (image : List Word16) (a : PcAddr) {m : Memory} (h : Memory.wf Config.imemSize m = true) :
    Memory.wf Config.imemSize (placeImage image a m) = true := by
  induction image generalizing a m with
  | nil => exact h
  | cons w ws ih => exact ih (nextPc a) (wf_placeNibbles _ a h)

/-- `State.reset` is the launch with both memories empty and the default entry point, from any state. -/
theorem reset_eq_launch (s : State) : State.reset = launch [] [] Config.defaultEntryPc s := rfl

end Sys2Proof.Machine
end

