-- ==== Sys2Proof/Tests/Slice0.lean ====
section
/-! SUPPORT. Tests of the model. Words are written out from the encoding tables of 30_encoding.md; expected results are
the vectors of 95_test_vectors.md, whose number stands in each name's comment. At the end, a witness for the hypotheses of
each statement that has any. -/

namespace Sys2Proof.Tests

open Sys2Proof.Machine

/-- A state built from the reset state by register writes, with the given `pc` and flags. -/
def start (pc : PcAddr) (rs : List (RegIdx × Nibble)) (c z : Bool) : State :=
  writePc pc (writeFlags c z (rs.foldl (fun s p => writeReg p.1 p.2 s) State.reset))

/-- One step of a state with a word placed where it fetches. -/
def after (w : Nat) (s : State) : Option State :=
  match step (s.withFetchWord 16 w) with
  | .next t => some t
  | _ => none

/-- A register and both flags after one step. -/
def regFlags (r : RegIdx) (o : Option State) : Option (Nibble × Bool × Bool) := o.map fun t => (readReg t r, t.c, t.z)

/-- The `pc` after one step. -/
def pcOf (o : Option State) : Option PcAddr := o.map fun t => t.pc

/-! ## WellFormed refuses each ill-formed term (R58, R65) -/

theorem test_wellFormed_refuses_j_with_link_bit : (Instr.j true 0x010).WellFormed = false := by decide
theorem test_wellFormed_refuses_jal_without_link_bit : (Instr.jal false 0x010).WellFormed = false := by decide
theorem test_encode_of_illFormed_j_is_a_jal : decode (encode (.j true 0x010)) = .legal (.jal true 0x010) := by decide

/-! ## Every constructor's word, bit by bit (R62, R63) -/

theorem test_decode_add : decode 0b0001_0011_0001_0010 = .legal (.add 3 1 2) := by decide
theorem test_decode_sub : decode 0b0010_0011_0001_0010 = .legal (.sub 3 1 2) := by decide
theorem test_decode_and : decode 0b0011_0011_0001_0010 = .legal (.and 3 1 2) := by decide
theorem test_decode_or : decode 0b0100_0011_0001_0010 = .legal (.or 3 1 2) := by decide
theorem test_decode_xor : decode 0b0101_0011_0001_0010 = .legal (.xor 3 1 2) := by decide
theorem test_decode_slt : decode 0b0110_0011_0001_0010 = .legal (.slt 3 1 2) := by decide
theorem test_decode_ori : decode 0b0111_0001_0000_0101 = .legal (.ori 1 0 5) := by decide
theorem test_decode_lw : decode 0b1000_0010_0100_0001 = .legal (.lw 2 4 1) := by decide
theorem test_decode_sw : decode 0b1001_0001_0100_0001 = .legal (.sw 1 4 1) := by decide
theorem test_decode_beqz : decode 0b1010_0001_0000_0011 = .legal (.beqz 1 0x03) := by decide
theorem test_decode_bnez : decode 0b1011_0001_1111_1111 = .legal (.bnez 1 0xFF) := by decide
theorem test_decode_bltz : decode 0b1100_0001_1111_1110 = .legal (.bltz 1 0xFE) := by decide
theorem test_decode_bgez : decode 0b1101_0000_1000_0000 = .legal (.bgez 0 0x80) := by decide
theorem test_decode_j : decode 0b1110_1000_0001_0000 = .legal (.j false 0x810) := by decide
theorem test_decode_jal : decode 0b1111_0000_0010_0000 = .legal (.jal true 0x020) := by decide
theorem test_decode_adc : decode 0b0000_0001_0010_0001 = .legal (.adc 1 2) := by decide
theorem test_decode_sbb : decode 0b0000_0001_0010_0010 = .legal (.sbb 1 2) := by decide
theorem test_decode_jr : decode 0b0000_1101_0010_0011 = .legal (.jr 2) := by decide
theorem test_decode_halt : decode 0b0000_1111_1111_0100 = .legal .halt := by decide
theorem test_decode_funct_zero_is_illegal : decode 0b0000_0000_0000_0000 = .illegal 0x0000 := by decide
theorem test_decode_funct_five_is_illegal : decode 0b0000_0001_0010_0101 = .illegal 0x0125 := by decide
theorem test_encode_store_with_negative_offset : encode (.sw 1 4 0xF) = 0x914F := by decide
theorem test_decodeTableWord_reads_the_stored_nibbles : decodeTableWord 16 0x914F = some (.sw 1 4 0xF) := by decide

/-! ## One step: vectors V1 to V8 -/

-- V1: 15 + 1 wraps, carry and zero together
theorem test_add_wraps : regFlags 3 (after 0x1312 (start 0 [(1, 15), (2, 1)] false false)) = some (0, true, true) := by decide
-- V1: the write to register 0 is dropped, the flags come from 18
theorem test_add_to_register_zero : regFlags 0 (after 0x1012 (start 0 [(1, 9), (2, 9)] false false)) = some (0, true, false) := by
  decide
-- V1: 3 - 5 borrows
theorem test_sub_borrows : regFlags 3 (after 0x2312 (start 0 [(1, 3), (2, 5)] false false)) = some (14, true, false) := by decide
-- V1: SUB does not subtract C
theorem test_sub_ignores_carry : regFlags 3 (after 0x2312 (start 0 [(1, 5), (2, 3)] true false)) = some (2, false, false) := by
  decide
-- V1
theorem test_and_clears_carry : regFlags 3 (after 0x3312 (start 0 [(1, 0xC), (2, 0xA)] true false)) = some (8, false, false) := by
  decide
theorem test_or_result : regFlags 3 (after 0x4312 (start 0 [(1, 0xC), (2, 0xA)] true true)) = some (0xE, false, false) := by decide
theorem test_xor_of_itself : regFlags 1 (after 0x5111 (start 0 [(1, 9)] true false)) = some (0, false, true) := by decide
theorem test_slt_is_signed : regFlags 3 (after 0x6312 (start 0 [(1, 0xF), (2, 1)] true false)) = some (1, false, false) := by decide
theorem test_slt_extremes : regFlags 3 (after 0x6312 (start 0 [(1, 7), (2, 8)] false false)) = some (0, false, true) := by decide
-- V2: the immediate is not sign-extended
theorem test_ori_merges : regFlags 2 (after 0x7213 (start 0 [(1, 0xC)] false true)) = some (0xF, false, false) := by decide
theorem test_ori_zero : regFlags 1 (after 0x7100 (start 0 [(1, 7)] true false)) = some (0, false, true) := by decide
-- V3, S7: the old destination is an operand
theorem test_adc_reads_destination : regFlags 1 (after 0x0121 (start 0 [(1, 3), (2, 2)] true false)) = some (6, false, false) := by
  decide
theorem test_adc_doubles : regFlags 1 (after 0x0111 (start 0 [(1, 9)] false false)) = some (2, true, false) := by decide
theorem test_sbb_least : regFlags 1 (after 0x0122 (start 0 [(2, 15)] true false)) = some (0, true, true) := by decide
theorem test_sbb_borrow_in : regFlags 1 (after 0x0122 (start 0 [(1, 5), (2, 2)] true false)) = some (2, false, false) := by decide
-- V4 row 3: the address wraps downward; row 7: the base is read before it is written
theorem test_lw_wraps_down :
    regFlags 2 (after 0x8248 (memWrite 0xFA 5 (start 0 [(5, 2)] true true))) = some (5, true, true) := by decide
theorem test_lw_over_its_base :
    regFlags 4 (after 0x8440 (memWrite 0x32 0xC (start 0 [(4, 3), (5, 2)] true true))) = some (0xC, true, true) := by decide
-- V4 row 4: the address wraps upward; row 9: a store of 0
theorem test_sw_wraps_up :
    (after 0x9145 (start 0 [(4, 0xF), (5, 0xE), (1, 7)] true true)).map (fun t => memRead t 0x03) = some 7 := by decide
theorem test_sw_zero_unlists_the_cell :
    (after 0x9040 (memWrite 0x32 0xC (start 0 [(4, 3), (5, 2)] true true))).map (fun t => t.dmem) = some [] := by decide
-- V5
theorem test_beqz_taken : pcOf (after 0xA103 (start 0x010 [] true false)) = some 0x01C := by decide
theorem test_beqz_not_taken : pcOf (after 0xA103 (start 0x010 [(1, 8)] true false)) = some 0x014 := by decide
theorem test_bnez_backward : pcOf (after 0xB1FF (start 0x00C [(1, 2)] true false)) = some 0x008 := by decide
theorem test_bnez_wraps : pcOf (after 0xB17F (start 0xF00 [(1, 1)] true false)) = some 0x0FC := by decide
theorem test_bltz_least : pcOf (after 0xC1FE (start 0x020 [(1, 8)] true false)) = some 0x018 := by decide
theorem test_bltz_not_taken_wraps : pcOf (after 0xC000 (start 0xFFC [] true false)) = some 0x000 := by decide
theorem test_bgez_wraps_below : pcOf (after 0xD080 (start 0x100 [] true false)) = some 0xF00 := by decide
theorem test_bgez_not_taken : pcOf (after 0xD102 (start 0x004 [(1, 8)] true false)) = some 0x008 := by decide
-- V6, S5, S6
theorem test_j_not_rescaled : pcOf (after 0xE010 (start 0x100 [] true false)) = some 0x010 := by decide
theorem test_j_with_target_bit_11_does_not_link :
    (after 0xE810 (start 0x100 [] true false)).map (fun t => (t.pc, linkTriple t)) = some (0x810, 0x000) := by decide
theorem test_jal_masks_its_target :
    (after 0xFFFF (start 0xABC [] true false)).map (fun t => (t.pc, linkTriple t)) = some (0x7FF, 0xAC0) := by decide
theorem test_jal_return_address_wraps :
    (after 0xF7FF (start 0xFFC [(13, 5), (14, 5), (15, 5)] true false)).map (fun t => (t.pc, linkTriple t)) =
      some (0x7FF, 0x000) := by decide
theorem test_jr_wraps_its_registers : pcOf (after 0x00F3 (start 0x000 [(15, 0xA), (1, 0xC)] true false)) = some 0xA0C := by decide
theorem test_jr_ignores_bits_and_does_not_mask :
    pcOf (after 0x0F13 (start 0x000 [(1, 8), (3, 2)] true false)) = some 0x802 := by decide
-- V7
theorem test_halt :
    (after 0x0FF4 (start 0x008 [] true false)).map (fun t => (t.run, t.fault, t.pc)) = some (.halted, none, 0x008) := by decide
theorem test_illegal_word_faults :
    (after 0x0125 (start 0x008 [(1, 3)] true false)).map (fun t => (t.run, t.fault, t.pc, readReg t 1, t.c)) =
      some (.halted, some .illegalInstruction, 0x008, 3, true) := by decide
-- V8 row 2: a fetch across the top of the instruction space
theorem test_fetch_wraps :
    (after 0x7109 (start 0xFFE [] true true)).map (fun t => (readReg t 1, t.pc)) = some (9, 0x002) := by decide
-- V9: an entry point outside the address range is refused
theorem test_launch_refuses_entry :
    (match launchImage [0x7105] 0 0x1000 [] [] State.reset with
      | .refused .preconditionViolation => true
      | _ => false) = true := by decide

/-! ## Witnesses: a state and operands that meet the hypotheses of each statement that has any -/

/-- The reset state with a word at its `pc`. -/
def withWord (w : Nat) : State := State.reset.withFetchWord 16 w

/-- A machine stopped by the fault, with its record. -/
def faulted : State := raiseIllegal State.reset

theorem witness_DecodeOfEncodeIsIdentity : (Instr.jal true 0xFFF).WellFormed = true ∧ (Instr.j false 0).WellFormed = true := by
  decide

theorem witness_EncodeOfDecodeRestoresReadBits : decode 0x0F13 = .legal (.jr 1) := by decide

theorem witness_DecodeFollowsOpcodeTable :
    decode 0x0FF4 = .legal .halt ∧ (0x0FF4 : Word16) &&& (tableRow .halt).mask = (tableRow .halt).pattern := by decide

theorem witness_IllegalWordsExactly :
    isIllegal 0x0FFF = true ∧ isIllegal 0x0005 = true ∧ isIllegal 0x0004 = false ∧ isIllegal 0x1000 = false ∧
      meetsIllegal (withWord 0x0000) :=
  ⟨by decide, by decide, by decide, by decide, rfl, by decide⟩

theorem witness_TwoNibbleArithmeticChains :
    (1 : RegIdx) ≠ 0 ∧ (2 : RegIdx) ≠ 0 ∧ (1 : RegIdx) ≠ 2 ∧ (1 : RegIdx) ≠ 4 := by decide

theorem witness_LoadAfterStore_same_cell :
    (2 : RegIdx) ≠ 0 ∧ effectiveAddress (start 0 [(4, 3), (5, 2)] false false) 4 1 = 0x33 := by decide

theorem witness_LoadAfterStore_other_cell :
    (2 : RegIdx) ≠ 0 ∧ effectiveAddress State.reset 0 0xF ≠ effectiveAddress State.reset 0 0 := by decide

/-- `exec` answers a next state: the hypothesis of the statements about every instruction (PcAfterEveryInstruction,
FlagsAfterEveryInstruction), for an instruction of each of their clauses. -/
theorem witness_exec_answers_next :
    ([.add 1 2 3, .sub 1 2 3, .and 1 2 3, .or 1 2 3, .xor 1 2 3, .slt 1 2 3, .ori 1 2 3, .lw 1 2 3, .sw 1 2 3, .beqz 1 0xFF,
      .bnez 1 0xFF, .bltz 1 0xFF, .bgez 1 0xFF, .j false 0xFFF, .jal true 0xFFF, .adc 1 2, .sbb 1 2, .jr 15, .halt] : List Instr).all
      (fun i => match exec i State.reset with
        | .next _ => true
        | _ => false) = true := by decide

/-- A step of a machine at an illegal word: the second clauses of PcAfterEveryInstruction and FlagsAfterEveryInstruction. -/
theorem witness_step_at_illegal_word :
    meetsIllegal (withWord 0x0005) ∧ step (withWord 0x0005) = .next (raiseIllegal (withWord 0x0005)) :=
  ⟨⟨rfl, by decide⟩, rfl⟩

/-- A step that stores: the hypothesis of StoresNeverReachFetch and OnlyNamedInstructionsWrite. -/
theorem witness_step_stores : ∃ t, step (withWord 0x9100) = .next t ∧ executes (withWord 0x9100) ["SW"] :=
  ⟨_, rfl, rfl, .sw 1 0 0, by decide, by decide⟩

/-- The four premises of FlagsAreReadByNoOtherInstruction: ADD writes both flags and reads neither, ADC reads `C`, LW writes none. -/
theorem witness_FlagsAreReadByNoOtherInstruction :
    (∃ t, step (withWord 0x1312) = .next t) ∧
      executes (withWord 0x1312) ["ADD", "SUB", "AND", "OR", "XOR", "SLT", "ORI"] ∧
      executes (withWord 0x0121) ["ADD", "SUB", "AND", "OR", "XOR", "SLT", "ORI", "ADC", "SBB"] ∧
      (∃ t, step (withWord 0x8100) = .next t) ∧
      ¬ executes (withWord 0x8100) ["ADD", "SUB", "AND", "OR", "XOR", "SLT", "ORI", "ADC", "SBB"] := by
  refine ⟨⟨_, rfl⟩, ⟨rfl, .add 3 1 2, by decide, by decide⟩, ⟨rfl, .adc 1 2, by decide, by decide⟩, ⟨_, rfl⟩, ?_⟩
  rintro ⟨-, i, hd, hm⟩
  have h : decode (iFetch (withWord 0x8100).imem (withWord 0x8100).pc) = .legal (.lw 1 0 0) := by decide
  rw [h] at hd
  cases hd
  simp [tableRow] at hm

theorem witness_StepRunsDecodedInstruction :
    (withWord 0xFFFF).run = .running ∧ decode (iFetch (withWord 0xFFFF).imem (withWord 0xFFFF).pc) = .legal (.jal true 0xFFF) := by
  decide

theorem witness_HaltResultAndFrame : executes (withWord 0x0004) ["HALT"] :=
  ⟨rfl, .halt, by decide, by decide⟩

/-- Both clauses of IllegalInstructionFault, at the functs 0 and 5 next to the legal ones and at the legal funct 4. -/
theorem witness_IllegalInstructionFault :
    (∀ w ∈ [0x0000, 0x0FF5], (withWord w).run = .running ∧
      (iFetch (withWord w).imem (withWord w).pc).extractLsb' 12 4 = 0 ∧
      ¬ (1 ≤ (iFetch (withWord w).imem (withWord w).pc).toNat % 16 ∧
        (iFetch (withWord w).imem (withWord w).pc).toNat % 16 ≤ 4)) ∧
    (1 ≤ (iFetch (withWord 0x0FF4).imem (withWord 0x0FF4).pc).toNat % 16 ∧
      (iFetch (withWord 0x0FF4).imem (withWord 0x0FF4).pc).toNat % 16 ≤ 4) ∧ ∃ t, step (withWord 0x0FF4) = .next t :=
  ⟨by decide, by decide, _, rfl⟩

theorem witness_HaltedMachineIsFinal :
    faulted.run = .halted ∧ faulted.fault = some .illegalInstruction ∧ step faulted = .next faulted :=
  ⟨rfl, rfl, rfl⟩

theorem witness_StepResultShowsTheState :
    ((withWord 0x0004).run = .running → (withWord 0x0004).fault = none) ∧
      ∃ t r, engineStep (withWord 0x0004) = .next (t, r) ∧ r.halted = true :=
  ⟨fun _ => rfl, _, _, rfl, rfl⟩

/-- A machine that runs without a fault, at HALT, at an illegal word and at neither. -/
theorem witness_RunEndsOnlyAtHaltOrIllegalWord :
    ∀ w ∈ [0x0004, 0x0000, 0x7105], (withWord w).run = .running ∧ (withWord w).fault = none ∧
      (match step (withWord w) with
        | .next _ => true
        | _ => false) = true := by decide

theorem witness_StepKeepsInvariant : (withWord 0x9100).Inv ∧ ∃ t, step (withWord 0x9100) = .next t :=
  ⟨⟨by decide, by decide, by decide, fun _ => rfl⟩, _, rfl⟩

theorem witness_PausedRunResumes :
    (withWord 0x7105).run = .running ∧ (withWord 0x7105).fault = none ∧
      ∃ t r, runSteps 1 (withWord 0x7105) = .next (t, some r) ∧ r.halted = false :=
  ⟨rfl, rfl, _, _, rfl, rfl⟩

/-- The last result of a run that HALT ends inside its budget, and of one that a fault ends. -/
theorem witness_RunLoopIsIteratedStep :
    ((withWord 0x0004).run = .running → (withWord 0x0004).fault = none) ∧
      (∃ t, runSteps 3 (withWord 0x0004) = .next (t, some ⟨true, none⟩)) ∧
      ∃ t, runSteps 3 (withWord 0x0000) = .next (t, some ⟨true, some .illegalInstruction⟩) :=
  ⟨fun _ => rfl, ⟨_, rfl⟩, _, rfl⟩

theorem witness_ControlSignalsRefineTheStep : (withWord 0x0121).run = .running ∧ (withWord 0x0000).run = .running := by decide

theorem witness_EveryContentHasOneCanonicalForm :
    Memory.wf 256 [(0xFF, 0x5)] = true ∧ ∀ a, a < 256 → readCell [(0xFF, 0x5)] a = if a = 255 then 5 else 0 :=
  ⟨by decide, fun a _ => by simp [readCell, Config.unlistedCell, eq_comm]⟩

/-- An image that ends at the top of the space: its word, and the uncovered cells on both of its sides. -/
theorem witness_ImageLiesAtItsBase :
    4088 + 4 * ([0x7105] : List Word16).length ≤ 4096 ∧ ([0x7105] : List Word16)[0]? = some 0x7105 ∧
      ¬ (4088 ≤ 4087 ∧ 4087 < 4088 + 4 * ([0x7105] : List Word16).length) ∧
      ¬ (4088 ≤ 4092 ∧ 4092 < 4088 + 4 * ([0x7105] : List Word16).length) := by decide

theorem witness_LaunchIsCheckedThenExact_in_range :
    4095 < 4096 ∧ 4092 + 4 * ([0x7105] : List Word16).length ≤ 4096 ∧ Memory.wf 4096 [(0xFFF, 0xF)] = true ∧
      Memory.wf 256 [(0xFF, 0x1)] = true := by decide

theorem witness_LaunchIsCheckedThenExact_out_of_range :
    (4096 ≤ 4096 ∨ 4096 < 0 + 4 * ([0x7105] : List Word16).length) ∧
      (4096 ≤ 0 ∨ 4096 < 4093 + 4 * ([0x7105] : List Word16).length) := by decide

theorem witness_PlacedWordRunsNext : decodeTableWord 16 0xFFFF = some (.jal true 0xFFF) := by decide

/-! ## The boundary (R187) -/

/-- The inputs with `rst` and `step_en` as given, a word on `imem_rdata` and a nibble on `dmem_rdata`. -/
def inputs (rst en : Bool) (w : Word16) (d : Nibble) : PortsIn := ⟨rst, 0x123, en, w, d⟩

/-- A SW that starts, a LW that starts (its cell reads 0), and a SW held back by a low `step_en` or a high `rst`, where
`dmem_rdata` may be anything: the clauses of DataPortShowsTheStore and BoundaryInputsActBetweenSteps. -/
theorem witness_DataPortShowsTheStore :
    memoriesAnswer (inputs false true 0x9100 0) (withWord 0x9100) = true ∧
      (portsOut (inputs false true 0x9100 0) (withWord 0x9100)).dmemWe = true ∧
      memoriesAnswer (inputs false true 0x8100 0) (withWord 0x8100) = true ∧
      (portsOut (inputs false true 0x8100 0) (withWord 0x8100)).dmemAddr = some 0 ∧
      (portsOut (inputs false true 0x8100 0) (withWord 0x8100)).dmemWe = false ∧
      memoriesAnswer (inputs false false 0x9100 7) (withWord 0x9100) = true ∧
      (portsOut (inputs false false 0x9100 7) (withWord 0x9100)).dmemWe = false ∧
      memoriesAnswer (inputs true true 0x9100 7) (withWord 0x9100) = true ∧
      (portsOut (inputs true true 0x9100 7) (withWord 0x9100)).dmemAddr = none := by decide

/-- A load takes its value from `dmem_rdata`. -/
theorem test_boundary_load_takes_the_read_data :
    readReg (boundary (inputs false true 0x8100 0xB) (withWord 0x8100)) 1 = 0xB := by decide

end Sys2Proof.Tests
end

namespace Sys2Proof.Machine

/-! SUPPORT. What the step and the instructions do, said once: the step by the machine's condition, the commit of the
ALU by field, an executed instruction by its kind. -/

/-! ## The step by the condition of the machine (R80) -/

theorem isIllegal_iff (w : Word16) : isIllegal w = true ↔ ∃ v, decode w = .illegal v := by
  unfold isIllegal
  cases decode w <;> simp

theorem engineStep_of_halted {s : State} (h : s.run = .halted) : engineStep s = .next (s, ⟨true, s.fault⟩) := by
  simp [engineStep, h]

theorem step_of_halted {s : State} (h : s.run = .halted) : step s = .next s :=
  step_next_iff.mpr ⟨_, engineStep_of_halted h⟩

theorem step_of_meetsIllegal {s : State} (h : meetsIllegal s) : step s = .next (raiseIllegal s) := by
  obtain ⟨hrun, hill⟩ := h
  obtain ⟨w, hw⟩ := (isIllegal_iff _).mp hill
  simp [step, engineStep, hrun, hw, dropResult]

theorem step_of_legal {s : State} {i : Instr} (hrun : s.run = .running) (hdec : decode (iFetch s.imem s.pc) = .legal i) :
    step s = exec i s := by
  simp only [step, engineStep, hrun, hdec]
  cases exec i s <;> rfl

/-- Everything a step can do: nothing in a halted machine, the fault on an illegal word, and the decoded instruction
otherwise. -/
theorem step_next_cases {s t : State} (h : step s = .next t) :
    (s.run = .halted ∧ t = s) ∨ (meetsIllegal s ∧ t = raiseIllegal s) ∨
      (s.run = .running ∧ ∃ i, decode (iFetch s.imem s.pc) = .legal i ∧ exec i s = .next t) := by
  obtain ⟨r, hr⟩ := step_next_iff.mp h
  rcases engineStep_cases hr with ⟨hrun, ht, -⟩ | ⟨hrun, hw, ht, -⟩ | ⟨hrun, i, hdec, hexec, -⟩
  · exact .inl ⟨hrun, ht⟩
  · exact .inr (.inl ⟨⟨hrun, (isIllegal_iff _).mpr hw⟩, ht⟩)
  · exact .inr (.inr ⟨hrun, i, hdec, hexec⟩)

/-! ## What a Running machine meets at `pc` -/

theorem executes_iff_of_legal {s : State} {i : Instr} (hrun : s.run = .running)
    (hdec : decode (iFetch s.imem s.pc) = .legal i) (ms : List String) :
    executes s ms ↔ (tableRow i).mnemonic ∈ ms := by
  simp [executes, hrun, hdec]

theorem not_meetsIllegal_of_legal {s : State} {i : Instr} (hdec : decode (iFetch s.imem s.pc) = .legal i) :
    ¬ meetsIllegal s := by
  simp [meetsIllegal, isIllegal, hdec]

theorem not_executes_of_meetsIllegal {s : State} (h : meetsIllegal s) (ms : List String) : ¬ executes s ms := by
  rintro ⟨-, i, hdec, -⟩
  exact not_meetsIllegal_of_legal hdec h

/-! ## The commit of an ALU instruction, by field -/

@[simp] theorem commitAlu_pc (rd : RegIdx) (o : AluOut) (s : State) : (commitAlu rd o s).pc = nextPc s.pc := by
  simp [commitAlu]
@[simp] theorem commitAlu_c (rd : RegIdx) (o : AluOut) (s : State) : (commitAlu rd o s).c = o.c := by simp [commitAlu]
@[simp] theorem commitAlu_z (rd : RegIdx) (o : AluOut) (s : State) : (commitAlu rd o s).z = o.z := by simp [commitAlu]
@[simp] theorem commitAlu_run (rd : RegIdx) (o : AluOut) (s : State) : (commitAlu rd o s).run = s.run := by
  simp [commitAlu]
@[simp] theorem commitAlu_fault (rd : RegIdx) (o : AluOut) (s : State) : (commitAlu rd o s).fault = s.fault := by
  simp [commitAlu]
@[simp] theorem commitAlu_dmem (rd : RegIdx) (o : AluOut) (s : State) : (commitAlu rd o s).dmem = s.dmem := by
  simp [commitAlu]
@[simp] theorem commitAlu_imem (rd : RegIdx) (o : AluOut) (s : State) : (commitAlu rd o s).imem = s.imem := by
  simp [commitAlu]

/-- The cell of register 0 is not written by a commit either (R12). -/
theorem commitAlu_cell_zero (rd : RegIdx) (o : AluOut) (s : State) : (commitAlu rd o s).regs[0] = s.regs[0] := by
  simp only [commitAlu, advancePc_regs, writeFlags_regs, writeReg_cell_zero]

/-! ## What an instruction can do, by kind -/

/-- The instructions that write the flags, the nine of the ALU (R17). -/
def flagWriters : List String := ["ADD", "SUB", "AND", "OR", "XOR", "SLT", "ORI", "ADC", "SBB"]

/-- The instructions that write `pc` and nothing else (R130, R140, R142). -/
def pcOnlyWriters : List String := ["BEQZ", "BNEZ", "BLTZ", "BGEZ", "J", "JR"]

/-- The six kinds of change an instruction makes to a state, with the instructions that make it. `exec_kind` ties it to
`exec`. -/
inductive InstrKind (s : State) : Instr → State → Prop
  | alu {i : Instr} (rd : RegIdx) (o : AluOut) (hi : (tableRow i).mnemonic ∈ flagWriters) :
      InstrKind s i (commitAlu rd o s)
  | load (rs base : RegIdx) (off4 : Nibble) :
      InstrKind s (.lw rs base off4) (advancePc (writeReg rs (memRead s (effectiveAddress s base off4)) s))
  | store (rs base : RegIdx) (off4 : Nibble) :
      InstrKind s (.sw rs base off4) (advancePc (memWrite (effectiveAddress s base off4) (readReg s rs) s))
  | pcOnly {i : Instr} (target : PcAddr) (hi : (tableRow i).mnemonic ∈ pcOnlyWriters) :
      InstrKind s i (writePc target s)
  | call (link : Bool) (target12 : BitVec 12) :
      InstrKind s (.jal link target12) (writePc (jalTarget target12) (writeLink (nextPc s.pc) s))
  | halt : InstrKind s .halt (haltRun s)

/-- Every branch only writes `pc`, taken or not (R130). -/
theorem InstrKind.branch {s : State} {i : Instr} (taken : Bool) (off8 : BitVec 8)
    (hi : (tableRow i).mnemonic ∈ pcOnlyWriters) : InstrKind s i (branchIf taken off8 s) := by
  rw [branchIf_spec]
  exact .pcOnly _ hi

/-- Everything an executed instruction can do. -/
theorem exec_kind {i : Instr} {s t : State} (h : exec i s = .next t) : InstrKind s i t := by
  cases i with
  | add | sub | and | or | xor | slt | ori | adc | sbb => cases h; exact .alu _ _ (by simp [tableRow, flagWriters])
  | lw => cases h; exact .load _ _ _
  | sw => cases h; exact .store _ _ _
  | beqz | bnez | bltz | bgez => cases h; exact .branch _ _ (by simp [tableRow, pcOnlyWriters])
  | j | jr => cases h; exact .pcOnly _ (by simp [tableRow, pcOnlyWriters])
  | jal => cases h; exact .call _ _
  | halt => cases h; exact .halt

theorem mnemonic_eq_halt_iff (i : Instr) : (tableRow i).mnemonic = "HALT" ↔ i = .halt := by
  cases i <;> simp [tableRow]

/-! ## What every instruction leaves alone -/

theorem exec_imem {i : Instr} {s t : State} (h : exec i s = .next t) : t.imem = s.imem := by
  cases exec_kind h <;> simp

theorem exec_fault {i : Instr} {s t : State} (h : exec i s = .next t) : t.fault = s.fault := by
  cases exec_kind h <;> simp

/-- Only HALT changes the run state (R18). -/
theorem exec_run {i : Instr} {s t : State} (h : exec i s = .next t) :
    t.run = if i = .halt then .halted else s.run := by
  cases exec_kind h with
  | alu _ _ hi | pcOnly _ hi =>
    have hne : i ≠ .halt := by rintro rfl; simp [tableRow, flagWriters, pcOnlyWriters] at hi
    simp [hne]
  | load | store | call | halt => simp

/-- The cell of register 0 is never written (R12). -/
theorem exec_cell_zero {i : Instr} {s t : State} (h : exec i s = .next t) : t.regs[0] = s.regs[0] := by
  cases exec_kind h with
  | alu rd o => exact commitAlu_cell_zero rd o s
  | load rs => exact writeReg_cell_zero rs _ s
  | call => exact writeLink_cell_zero _ s
  | store | pcOnly | halt => rfl

/-- A canonical data space stays canonical. -/
theorem exec_dmem_wf {i : Instr} {s t : State} (h : exec i s = .next t)
    (hwf : Memory.wf Config.dmemSize s.dmem = true) : Memory.wf Config.dmemSize t.dmem = true := by
  cases exec_kind h with
  | store => exact memWrite_wf hwf _ _
  | alu | load | pcOnly | call | halt => simpa using hwf

theorem step_imem {s t : State} (h : step s = .next t) : t.imem = s.imem := by
  rcases step_next_cases h with ⟨-, rfl⟩ | ⟨-, rfl⟩ | ⟨-, i, -, hexec⟩
  · rfl
  · rfl
  · exact exec_imem hexec

/-! The invariant, the halted machine and the end of a run (R12, R18, R19, R185). -/

/-- An instruction of a Running machine keeps the invariant. -/
theorem exec_keeps_inv {i : Instr} {s t : State} (hinv : s.Inv) (hrun : s.run = .running) (h : exec i s = .next t) :
    t.Inv := by
  obtain ⟨hzero, hdmem, himem, hfault⟩ := hinv
  refine ⟨?_, exec_dmem_wf h hdmem, ?_, fun _ => ?_⟩
  · rw [exec_cell_zero h, hzero]
  · rw [exec_imem h, himem]
  · rw [exec_fault h, hfault hrun]

theorem raiseIllegal_keeps_inv {s : State} (hinv : s.Inv) : (raiseIllegal s).Inv := by
  obtain ⟨hzero, hdmem, himem, -⟩ := hinv
  exact ⟨hzero, hdmem, himem, fun hrun => by simp at hrun⟩

/-- Settles O38, by the three things a step can do. -/
theorem stepKeepsInvariant : Obligations.StepKeepsInvariant := by
  intro s t hinv hstep
  rcases step_next_cases hstep with ⟨-, rfl⟩ | ⟨-, rfl⟩ | ⟨hrun, i, -, hexec⟩
  · exact hinv
  · exact raiseIllegal_keeps_inv hinv
  · exact exec_keeps_inv hinv hrun hexec

/-- Settles O46. -/
theorem resetHasInvariant : Obligations.ResetHasInvariant := by
  obtain ⟨hdmem, himem⟩ := reset_memories_wf
  exact ⟨by simp [State.reset], hdmem, himem, fun _ => rfl⟩

/-- Settles O45: `launch` is the CORE's own reset with both memories replaced. -/
theorem resetGivesTheLaunchState : Obligations.ResetGivesTheLaunchState := by
  intro imemInit dmemInit entry s
  have hregs (i : RegIdx) : (launch imemInit dmemInit entry s).regs[i] = 0 := by simp [launch]
  exact ⟨hregs, rfl, rfl, rfl, rfl, rfl, rfl, rfl, rfl, rfl⟩

/-- A halted machine stays as it is for any number of steps (R80). -/
theorem run_of_halted {s : State} (h : s.run = .halted) (n : Nat) : Sys2Proof.core.run n s = .next s := by
  induction n with
  | zero => rfl
  | succ n ih => rw [core_run_succ n (step_of_halted h), ih]

/-- A step changes the fault record only by raising the fault (R161). -/
theorem step_fault {s t : State} (h : step s = .next t) :
    t.fault = s.fault ∨ (meetsIllegal s ∧ t.fault = some .illegalInstruction) := by
  rcases step_next_cases h with ⟨-, rfl⟩ | ⟨hill, rfl⟩ | ⟨-, i, -, hexec⟩
  · exact .inl rfl
  · exact .inr ⟨hill, rfl⟩
  · exact .inl (exec_fault hexec)

/-- Settles O34. -/
theorem haltedMachineIsFinal : Obligations.HaltedMachineIsFinal := by
  refine ⟨fun s n h => ⟨engineStep_of_halted h, run_of_halted h n⟩, fun s t hstep hfault => ?_⟩
  rcases step_fault hstep with hkeep | ⟨-, hnew⟩
  · rw [hkeep, hfault]
  · exact hnew

/-- Settles O36: an illegal word, HALT and any other instruction are the three cases of a step of a Running machine. -/
theorem runEndsOnlyAtHaltOrIllegalWord : Obligations.RunEndsOnlyAtHaltOrIllegalWord := by
  intro s t hrun hfault hstep
  rcases step_next_cases hstep with ⟨hhalt, -⟩ | ⟨hill, rfl⟩ | ⟨-, i, hdec, hexec⟩
  · simp [hrun] at hhalt
  · simp [State.EndedNormally, State.EndedFaulted, hill, not_executes_of_meetsIllegal hill]
  · have hnot : ¬ meetsIllegal s := not_meetsIllegal_of_legal hdec
    have hhalt : executes s ["HALT"] ↔ i = .halt := by
      simp [executes_iff_of_legal hrun hdec, mnemonic_eq_halt_iff]
    by_cases hi : i = .halt <;>
      simp [State.EndedNormally, State.EndedFaulted, hnot, hhalt, exec_run hexec, exec_fault hexec, hrun, hfault, hi]

/-! Which instructions write which element of the state (R10). -/

/-- The instructions that write a register (R10). -/
def regWriters : List String := ["ADD", "SUB", "AND", "OR", "XOR", "SLT", "ORI", "ADC", "SBB", "LW", "JAL"]

theorem mem_regWriters_of_flagWriters {m : String} (h : m ∈ flagWriters) : m ∈ regWriters :=
  List.mem_append_left ["LW", "JAL"] h

theorem exec_readReg_ne {i : Instr} {s t : State} (h : exec i s = .next t) {j : RegIdx}
    (hne : readReg t j ≠ readReg s j) : (tableRow i).mnemonic ∈ regWriters := by
  cases exec_kind h with
  | alu _ _ hi => exact mem_regWriters_of_flagWriters hi
  | load | call => simp [tableRow, regWriters]
  | store | pcOnly | halt => simp at hne

theorem exec_flags_ne {i : Instr} {s t : State} (h : exec i s = .next t) (hne : ¬ sameFlags s t) :
    (tableRow i).mnemonic ∈ flagWriters := by
  cases exec_kind h with
  | alu _ _ hi => exact hi
  | load | store | pcOnly | call | halt => simp [sameFlags] at hne

theorem exec_memRead_ne {i : Instr} {s t : State} (h : exec i s = .next t) {a : DataAddr}
    (hne : memRead t a ≠ memRead s a) : (tableRow i).mnemonic ∈ ["SW"] := by
  cases exec_kind h with
  | store => simp [tableRow]
  | alu | load | pcOnly | call | halt => simp [memRead] at hne

/-- A change that the fault does not make, and only the named instructions do, happens in a step only when one of them
executes. -/
theorem executes_of_changed {s t : State} {ms : List String} {Changed : State → Prop} (hstep : step s = .next t)
    (hsame : ¬ Changed s) (hfault : ¬ Changed (raiseIllegal s))
    (hexec : ∀ i, exec i s = .next t → Changed t → (tableRow i).mnemonic ∈ ms) (ht : Changed t) : executes s ms := by
  rcases step_next_cases hstep with ⟨-, rfl⟩ | ⟨-, rfl⟩ | ⟨hrun, i, hdec, hi⟩
  · exact absurd ht hsame
  · exact absurd ht hfault
  · exact ⟨hrun, i, hdec, hexec i hi ht⟩

theorem step_readReg_ne {s t : State} (hstep : step s = .next t) {j : RegIdx} (hne : readReg t j ≠ readReg s j) :
    executes s regWriters :=
  executes_of_changed (Changed := fun u => readReg u j ≠ readReg s j) hstep (by simp) (by simp)
    (fun _ hexec => exec_readReg_ne hexec) hne

theorem step_flags_ne {s t : State} (hstep : step s = .next t) (hne : ¬ sameFlags s t) : executes s flagWriters :=
  executes_of_changed (Changed := fun u => ¬ sameFlags s u) hstep (by simp [sameFlags]) (by simp [sameFlags])
    (fun _ hexec => exec_flags_ne hexec) hne

theorem step_memRead_ne {s t : State} (hstep : step s = .next t) {a : DataAddr} (hne : memRead t a ≠ memRead s a) :
    executes s ["SW"] :=
  executes_of_changed (Changed := fun u => memRead u a ≠ memRead s a) hstep (by simp) (by simp)
    (fun _ hexec => exec_memRead_ne hexec) hne

/-- Only an executed instruction other than HALT moves `pc` (R14, R161). -/
theorem step_pc_ne {s t : State} (hstep : step s = .next t) (hne : t.pc ≠ s.pc) :
    s.run = .running ∧ ¬ executes s ["HALT"] ∧ ¬ meetsIllegal s := by
  rcases step_next_cases hstep with ⟨-, rfl⟩ | ⟨-, rfl⟩ | ⟨hrun, i, hdec, hexec⟩
  · exact absurd rfl hne
  · exact absurd rfl hne
  · refine ⟨hrun, fun hhalt => ?_, not_meetsIllegal_of_legal hdec⟩
    have hi : i = .halt := by simpa [executes_iff_of_legal hrun hdec, mnemonic_eq_halt_iff] using hhalt
    subst hi
    cases hexec
    exact hne rfl

theorem step_run_ne {s t : State} (hstep : step s = .next t) (hne : t.run ≠ s.run) :
    executes s ["HALT"] ∨ meetsIllegal s := by
  rcases step_next_cases hstep with ⟨-, rfl⟩ | ⟨hill, rfl⟩ | ⟨hrun, i, hdec, hexec⟩
  · exact absurd rfl hne
  · exact .inr hill
  · have hi : i = .halt := by
      by_contra hi
      exact hne (by simp [exec_run hexec, hi])
    exact .inl ⟨hrun, i, hdec, by simp [hi, tableRow]⟩

/-- Settles O37, element by element. -/
theorem onlyNamedInstructionsWrite : Obligations.OnlyNamedInstructionsWrite := by
  intro s t hstep
  refine ⟨fun ⟨_, hne⟩ => step_readReg_ne hstep hne, step_pc_ne hstep, step_flags_ne hstep, step_run_ne hstep,
    fun hne => ?_, fun ⟨_, hne⟩ => step_memRead_ne hstep hne, fun a => by rw [step_imem hstep]⟩
  rcases step_fault hstep with hkeep | ⟨hill, -⟩
  · exact absurd hkeep hne
  · exact hill

/-! The new `pc` of every instruction (R15). -/

theorem sext8_eq_toInt (v : BitVec 8) : sext8 v = v.toInt := by
  unfold sext8
  rw [BitVec.toInt_eq_toNat_cond]
  split <;> split <;> omega

theorem nextPc_toNat (pc : PcAddr) : ((nextPc pc).toNat : Int) = ((pc.toNat : Int) + 4) % 4096 := by
  simp [nextPc, Config.instrNibbles]

/-- Where a branch goes, as a number (R130). -/
theorem branchIf_pc_toNat (p : Prop) [Decidable p] (off8 : BitVec 8) (s : State) :
    ((branchIf (decide p) off8 s).pc.toNat : Int) = ((s.pc.toNat : Int) + if p then 4 * off8.toInt else 4) % 4096 := by
  rw [branchIf_spec, writePc_pc]
  by_cases h : p
  · simp [h, branchTarget_toNat, sext8_eq_toInt]
  · simp [h, nextPc_toNat]

/-- A nibble is zero when its signed reading is. -/
theorem nibble_eq_zero_iff_toInt (v : Nibble) : v = 0 ↔ v.toInt = 0 := by
  rw [← BitVec.toInt_inj]
  rfl

/-- Settles O27, instruction by instruction. -/
theorem pcAfterEveryInstruction : Obligations.PcAfterEveryInstruction := by
  refine ⟨fun i s t h => ?_, fun s t hill hstep => ?_⟩
  · cases i with
    | add | sub | and | or | xor | slt | ori | adc | sbb => cases h; simp only [commitAlu_pc, nextPc_toNat]
    | lw => cases h; simp only [advancePc_pc, writeReg_pc, nextPc_toNat]
    | sw => cases h; simp only [advancePc_pc, memWrite_pc, nextPc_toNat]
    | beqz => cases h; simp only [branchIf_pc_toNat, nibble_eq_zero_iff_toInt]
    | bnez => cases h; simp only [branchIf_pc_toNat, ne_eq, nibble_eq_zero_iff_toInt]
    | bltz => cases h; simp only [branchIf_pc_toNat, signed4, sext4_eq_toInt]
    | bgez => cases h; simp only [branchIf_pc_toNat, signed4, sext4_eq_toInt, ge_iff_le]
    | j => cases h; rfl
    | jal => cases h; simp [jalTarget_toNat]
    | jr => cases h; simp [registerTriple_toNat]
    | halt => cases h; rfl
  · rw [step_of_meetsIllegal hill] at hstep
    cases hstep
    rfl

/-! Both flags after every instruction (R17). -/

theorem alu_z_add (a b : Nibble) (cin : Bool) :
    (alu .add a b cin).z = decide ((a.toNat + b.toNat + cin.toNat) % 16 = 0) := by
  rw [alu_z, ← alu_r_add, decide_eq_decide]
  exact BitVec.toNat_inj.symm

theorem alu_z_sub (a b : Nibble) (cin : Bool) :
    (alu .sub a b cin).z = decide (((a.toNat : Int) - b.toNat - cin.toNat) % 16 = 0) := by
  rw [alu_z, ← alu_r_sub, decide_eq_decide, Int.natCast_eq_zero]
  exact BitVec.toNat_inj.symm

/-- The borrow as a comparison of unsigned values (R93). -/
theorem alu_c_sub_eq_lt (a b : Nibble) (cin : Bool) :
    (alu .sub a b cin).c = decide (a.toNat < b.toNat + cin.toNat) := by
  rw [alu_c_sub, decide_eq_decide]
  omega

/-- Without a borrow in, a difference is zero only for equal operands. -/
theorem alu_z_sub_false (a b : Nibble) : (alu .sub a b false).z = decide (a = b) := by
  rw [alu_z_sub, decide_eq_decide, ← BitVec.toNat_inj, Bool.toNat_false]
  omega

theorem alu_z_slt (a b : Nibble) : (alu .slt a b false).z = decide (b.toInt ≤ a.toInt) := by
  rw [alu_z, decide_eq_decide]
  by_cases h : a.toInt < b.toInt
  · simp [alu, signed4, sext4_eq_toInt, h]
  · simp [alu, signed4, sext4_eq_toInt, h, not_lt.mp h]

/-- Settles O28, instruction by instruction. -/
theorem flagsAfterEveryInstruction : Obligations.FlagsAfterEveryInstruction := by
  refine ⟨fun i s t h => ?_, fun s t hill hstep => ?_⟩
  · cases i with
    | and | or | xor | ori => cases h; exact ⟨rfl, rfl⟩
    | slt => cases h; exact ⟨rfl, alu_z_slt _ _⟩
    | add => cases h; exact ⟨alu_c_add _ _ _, alu_z_add _ _ _⟩
    | adc => cases h; exact ⟨alu_c_add _ _ _, alu_z_add _ _ _⟩
    | sub => cases h; exact ⟨alu_c_sub_eq_lt _ _ _, alu_z_sub_false _ _⟩
    | sbb => cases h; exact ⟨alu_c_sub_eq_lt _ _ _, alu_z_sub _ _ _⟩
    | lw | sw | beqz | bnez | bltz | bgez | j | jal | jr | halt =>
      by_contra hne
      have hi := exec_flags_ne h hne
      simp [tableRow, flagWriters] at hi
  · rw [step_of_meetsIllegal hill] at hstep
    cases hstep
    exact ⟨rfl, rfl⟩

/-! No instruction reads `Z`, and only ADC and SBB read `C` (R16). A flag is overwritten by `writeFlags`, which commutes with
every other update and is undone by the commit of the ALU. -/

theorem writeReg_writeFlags (r : RegIdx) (v : Nibble) (c z : Bool) (s : State) :
    writeReg r v (writeFlags c z s) = writeFlags c z (writeReg r v s) := by
  unfold writeReg
  split <;> rfl

theorem writeLink_writeFlags (ret : PcAddr) (c z : Bool) (s : State) :
    writeLink ret (writeFlags c z s) = writeFlags c z (writeLink ret s) := by
  simp only [writeLink, writeReg_writeFlags]

theorem branchIf_writeFlags (taken : Bool) (off8 : BitVec 8) (c z : Bool) (s : State) :
    branchIf taken off8 (writeFlags c z s) = writeFlags c z (branchIf taken off8 s) := by
  rw [branchIf_spec, branchIf_spec]
  rfl

/-- The commit of an ALU instruction leaves no trace of the old flags. -/
theorem commitAlu_writeFlags (rd : RegIdx) (o : AluOut) (c z : Bool) (s : State) :
    commitAlu rd o (writeFlags c z s) = commitAlu rd o s := by
  simp only [commitAlu, writeReg_writeFlags]
  rfl

/-- The ALU instructions without a carry in: the flag writers but ADC and SBB. -/
def flagWritersWithoutCarry : List String := ["ADD", "SUB", "AND", "OR", "XOR", "SLT", "ORI"]

theorem exec_writeFlags_of_withoutCarry {i : Instr} (hi : (tableRow i).mnemonic ∈ flagWritersWithoutCarry) (c z : Bool)
    (s : State) : exec i (writeFlags c z s) = exec i s := by
  cases i with
  | add | sub | and | or | xor | slt | ori => exact congrArg Host.Outcome.next (commitAlu_writeFlags _ _ c z s)
  | adc | sbb | lw | sw | beqz | bnez | bltz | bgez | j | jal | jr | halt =>
    simp [tableRow, flagWritersWithoutCarry] at hi

/-- `Z` is read by no ALU instruction, ADC and SBB included. -/
theorem exec_writeZ_of_flagWriters {i : Instr} (hi : (tableRow i).mnemonic ∈ flagWriters) (z : Bool) (s : State) :
    exec i (writeFlags s.c z s) = exec i s := by
  cases i with
  | add | sub | and | or | xor | slt | ori | adc | sbb =>
    exact congrArg Host.Outcome.next (commitAlu_writeFlags _ _ s.c z s)
  | lw | sw | beqz | bnez | bltz | bgez | j | jal | jr | halt => simp [tableRow, flagWriters] at hi

/-- An instruction that writes no flag reads none and hands both on. -/
theorem exec_writeFlags_of_not_flagWriters {i : Instr} (hi : (tableRow i).mnemonic ∉ flagWriters) {s t : State}
    (h : exec i s = .next t) (c z : Bool) : exec i (writeFlags c z s) = .next (writeFlags c z t) := by
  cases i with
  | add | sub | and | or | xor | slt | ori | adc | sbb => simp [tableRow, flagWriters] at hi
  | lw =>
    cases h
    exact congrArg (fun u => Host.Outcome.next (advancePc u)) (writeReg_writeFlags _ _ c z s)
  | beqz | bnez | bltz | bgez => cases h; exact congrArg Host.Outcome.next (branchIf_writeFlags _ _ c z s)
  | jal =>
    cases h
    exact congrArg (fun u => Host.Outcome.next (writePc _ u)) (writeLink_writeFlags _ c z s)
  | sw | j | jr | halt => cases h; rfl

/-- A step that executes an instruction whose meaning is the same after a change of the flags is the same step. -/
theorem step_writeFlags_of_executes {s : State} {ms : List String} (hs : executes s ms) {c z : Bool}
    (hexec : ∀ i : Instr, (tableRow i).mnemonic ∈ ms → exec i (writeFlags c z s) = exec i s) :
    step (writeFlags c z s) = step s := by
  obtain ⟨hrun, i, hdec, hi⟩ := hs
  calc step (writeFlags c z s) = exec i (writeFlags c z s) := step_of_legal hrun hdec
    _ = exec i s := hexec i hi
    _ = step s := (step_of_legal hrun hdec).symm

/-- A step that executes no flag writer makes the same change whatever the flags hold, and hands both on. -/
theorem step_writeFlags_of_not_executes {s t : State} (hs : ¬ executes s flagWriters) (hstep : step s = .next t)
    (c z : Bool) : step (writeFlags c z s) = .next (writeFlags c z t) := by
  rcases step_next_cases hstep with ⟨hhalt, rfl⟩ | ⟨hill, rfl⟩ | ⟨hrun, i, hdec, hexec⟩
  · exact step_of_halted hhalt
  · exact step_of_meetsIllegal (s := writeFlags c z s) hill
  · have hi : (tableRow i).mnemonic ∉ flagWriters := fun hi => hs ⟨hrun, i, hdec, hi⟩
    calc step (writeFlags c z s) = exec i (writeFlags c z s) := step_of_legal hrun hdec
      _ = .next (writeFlags c z t) := exec_writeFlags_of_not_flagWriters hi hexec c z

/-- Settles O29: setting one flag is `writeFlags` with the other one as it is. -/
theorem flagsAreReadByNoOtherInstruction : Obligations.FlagsAreReadByNoOtherInstruction := by
  intro s t hstep
  have hsame (hs : ¬ executes s flagWriters) : sameFlags s t := by
    by_contra hne
    exact hs (step_flags_ne hstep hne)
  refine ⟨fun hs z => ?_, fun hs z => ?_, fun hs c => ?_, fun hs c => ?_⟩
  · exact (step_writeFlags_of_executes hs fun i hi => exec_writeZ_of_flagWriters hi z s).trans hstep
  · obtain ⟨hc, -⟩ := hsame hs
    calc step (writeFlags s.c z s) = .next (writeFlags s.c z t) := step_writeFlags_of_not_executes hs hstep s.c z
      _ = .next { t with z := z } := by rw [← hc]; rfl
  · exact (step_writeFlags_of_executes hs fun i hi => exec_writeFlags_of_withoutCarry hi c s.z s).trans hstep
  · obtain ⟨-, hz⟩ := hsame hs
    calc step (writeFlags c s.z s) = .next (writeFlags c s.z t) := step_writeFlags_of_not_executes hs hstep c s.z
      _ = .next { t with c := c } := by rw [← hz]; rfl

end Sys2Proof.Machine

namespace Sys2Proof.Machine

/-! SUPPORT. The two memories: what the store and the load do to the data space, how a fetch reads the instruction space,
and where a placed word or image lies in it (20_memory.md). -/

/-! ## Store and load (R36, R122, R123) -/

/-- The effective address is formed from registers alone (R120, R121). -/
theorem effectiveAddress_congr {s t : State} (h : ∀ i, readReg t i = readReg s i) (base : RegIdx) (off4 : Nibble) :
    effectiveAddress t base off4 = effectiveAddress s base off4 := by
  simp only [effectiveAddress, baseAddress, h]

/-- A store writes no register (R123). -/
theorem exec_sw_readReg {rs base : RegIdx} {off4 : Nibble} {s t : State} (h : exec (.sw rs base off4) s = .next t)
    (i : RegIdx) : readReg t i = readReg s i := by
  cases h
  simp

/-- The data space after a store (R123). -/
theorem exec_sw_memRead {rs base : RegIdx} {off4 : Nibble} {s t : State} (h : exec (.sw rs base off4) s = .next t)
    (a : DataAddr) :
    memRead t a = if a = effectiveAddress s base off4 then readReg s rs else memRead s a := by
  cases h
  rw [memRead_advancePc, memRead_memWrite]

/-- The destination after a load (R122). -/
theorem exec_lw_readReg_self {rd base : RegIdx} {off4 : Nibble} {s t : State} (h : exec (.lw rd base off4) s = .next t)
    (hrd : rd ≠ 0) : readReg t rd = memRead s (effectiveAddress s base off4) := by
  cases h
  rw [readReg_advancePc, readReg_writeReg, if_pos ⟨rfl, hrd⟩]

/-! ## Fetch (R33, R34) -/

/-- The fetch with its addresses as numbers. -/
theorem iFetch_eq (imem : Memory) (a : PcAddr) :
    iFetch imem a =
      wordOfNibbles (readCell imem a.toNat) (readCell imem ((a.toNat + 1) % 4096))
        (readCell imem ((a.toNat + 2) % 4096)) (readCell imem ((a.toNat + 3) % 4096)) := by
  simp [iFetch, BitVec.toNat_add]

/-- A fetch that does not cross the top of the instruction space depends on the four cells from its address. -/
theorem iFetch_congr {m m' : Memory} {n : Nat} (hn : n + 4 ≤ 4096)
    (h : ∀ b, n ≤ b → b < n + 4 → readCell m' b = readCell m b) :
    iFetch m' (BitVec.ofNat 12 n) = iFetch m (BitVec.ofNat 12 n) := by
  have hmod (k : Nat) (hk : k < 4) : (n + k) % 4096 = n + k := Nat.mod_eq_of_lt (by omega)
  have hcell (k : Nat) (hk : k < 4) : readCell m' (n + k) = readCell m (n + k) := h _ (by omega) (by omega)
  have haddr : (BitVec.ofNat 12 n).toNat = n := hmod 0 (by decide)
  rw [iFetch_eq, iFetch_eq, haddr, hmod 1 (by decide), hmod 2 (by decide), hmod 3 (by decide), hcell 1 (by decide),
    hcell 2 (by decide), hcell 3 (by decide), h n (by omega) (by omega)]

/-! ## Placing a word and an image (R35) -/

theorem nextPc_ofNat (n : Nat) : nextPc (BitVec.ofNat 12 n) = BitVec.ofNat 12 (n + 4) :=
  (nextPc_eq _).trans (BitVec.ofNat_add n 4).symm

/-- Nibbles that fit below the top of the instruction space change only the cells they are placed in. -/
theorem readCell_placeNibbles_of_outside {ns : List Nibble} {n b : Nat} (hfit : n + ns.length ≤ 4096)
    (hb : ¬ (n ≤ b ∧ b < n + ns.length)) (m : Memory) :
    readCell (placeNibbles ns (BitVec.ofNat 12 n) m) b = readCell m b := by
  induction ns generalizing n m with
  | nil => rfl
  | cons v ns ih =>
    rw [List.length_cons] at hfit hb
    have haddr : (BitVec.ofNat 12 n).toNat = n := Nat.mod_eq_of_lt (by omega)
    have hnext : BitVec.ofNat 12 n + 1 = BitVec.ofNat 12 (n + 1) := (BitVec.ofNat_add n 1).symm
    have hne : b ≠ n := by omega
    rw [placeNibbles, haddr, hnext, ih (by omega) (by omega), readCell_writeCell, if_neg hne]

/-- An image that fits changes only the cells it covers. -/
theorem readCell_placeImage_of_outside {image : List Word16} {base b : Nat} (hfit : base + 4 * image.length ≤ 4096)
    (hb : ¬ (base ≤ b ∧ b < base + 4 * image.length)) (m : Memory) :
    readCell (placeImage image (BitVec.ofNat 12 base) m) b = readCell m b := by
  induction image generalizing base m with
  | nil => rfl
  | cons w ws ih =>
    rw [List.length_cons] at hfit hb
    have hlen : (nibblesOfWord w).length = 4 := rfl
    rw [placeImage, nextPc_ofNat, ih (by omega) (by omega), placeWord,
      readCell_placeNibbles_of_outside (by omega) (by omega)]

/-- The words of an image that fits, fetched one by one. -/
theorem iFetch_placeImage {image : List Word16} {base k : Nat} {w : Word16} (hfit : base + 4 * image.length ≤ 4096)
    (hw : image[k]? = some w) (m : Memory) :
    iFetch (placeImage image (BitVec.ofNat 12 base) m) (BitVec.ofNat 12 (base + 4 * k)) = w := by
  induction image generalizing base k m with
  | nil => simp at hw
  | cons v vs ih =>
    rw [List.length_cons] at hfit
    rw [placeImage, nextPc_ofNat]
    cases k with
    | zero =>
      obtain rfl : v = w := by simpa using hw
      have hlater (b : Nat) (_ : base ≤ b) (hb : b < base + 4) :
          readCell (placeImage vs (BitVec.ofNat 12 (base + 4)) (placeWord v (BitVec.ofNat 12 base) m)) b =
            readCell (placeWord v (BitVec.ofNat 12 base) m) b :=
        readCell_placeImage_of_outside (by omega) (by omega) _
      exact (iFetch_congr (by omega) hlater).trans (iFetch_placeWord v _ m)
    | succ k =>
      have haddr : base + 4 * (k + 1) = base + 4 + 4 * k := by omega
      rw [haddr]
      exact ih (by omega) (by simpa using hw) _

/-! ## The word the step fetches (R80) -/

/-- The word laid out as `IMEM` stores it decodes as the word itself. -/
theorem decodeNibbles_nibblesOfWord_eq_some {w : Word16} {i : Instr} (h : decodeNibbles (nibblesOfWord w) = some i) :
    decode w = .legal i := by
  simp only [decodeNibbles, nibblesOfWord, wordOfNibbles_of_nibbles] at h
  split at h
  · next j hj => cases h; exact hj
  · cases h

/-- A placed word is the one the step fetches. -/
theorem iFetch_withFetchWord (s : State) (nbits w : Nat) :
    iFetch (s.withFetchWord nbits w).imem (s.withFetchWord nbits w).pc = tableWord nbits w :=
  iFetch_placeWord _ s.pc s.imem

/-! ## Every instruction and every step answers -/

/-- No instruction faults or is refused, in any state (R38, R162). -/
theorem exec_answers_next (i : Instr) (s : State) : ∃ t, exec i s = .next t := by
  cases i <;> exact ⟨_, rfl⟩

/-- Neither does a step, whatever the machine meets at `pc` (R65, R80). -/
theorem step_answers_next (s : State) : ∃ t, step s = .next t := by
  cases hrun : s.run with
  | halted => exact ⟨_, step_of_halted hrun⟩
  | running =>
    cases hdec : decode (iFetch s.imem s.pc) with
    | illegal w => exact ⟨_, step_of_meetsIllegal ⟨hrun, (isIllegal_iff _).mpr ⟨w, hdec⟩⟩⟩
    | legal i => rw [step_of_legal hrun hdec]; exact exec_answers_next i s

/-! ## The statements -/

/-- Settles O42. -/
theorem fetchAssemblesFourNibbles : Obligations.FetchAssemblesFourNibbles := by
  intro imem a
  rw [iFetch_eq, wordOfNibbles_toNat]

/-- Settles O19: the load reads the data space the store left, at an address the store did not change. -/
theorem loadAfterStore : Obligations.LoadAfterStore := by
  intro rs base rd base' off4 off4' s hrd
  obtain ⟨t, hstore⟩ := exec_answers_next (.sw rs base off4) s
  obtain ⟨u, hload⟩ := exec_answers_next (.lw rd base' off4') t
  refine ⟨t, u, hstore, hload, ?_⟩
  rw [exec_lw_readReg_self hload hrd, effectiveAddress_congr (exec_sw_readReg hstore), exec_sw_memRead hstore]

/-- Settles O20. -/
theorem storesNeverReachFetch : Obligations.StoresNeverReachFetch := by
  intro s t hstep
  have himem : t.imem = s.imem := step_imem hstep
  exact ⟨himem, fun a => by rw [himem]⟩

/-- Settles O31. -/
theorem everyStepAnswersANextState : Obligations.EveryStepAnswersANextState :=
  ⟨step_answers_next, exec_answers_next⟩

/-- Settles O44, by induction on the image: the words placed later leave the first one alone. -/
theorem imageLiesAtItsBase : Obligations.ImageLiesAtItsBase := by
  intro image base rest hfit
  exact ⟨fun _ _ hw => iFetch_placeImage hfit hw rest, fun _ _ ha => readCell_placeImage_of_outside hfit ha rest⟩

/-- Settles O48. -/
theorem placedWordRunsNext : Obligations.PlacedWordRunsNext := by
  intro s w i hw
  have hdec : decode (tableWord 16 w) = .legal i := decodeNibbles_nibblesOfWord_eq_some hw
  rw [← iFetch_withFetchWord s 16 w] at hdec
  exact step_of_legal rfl hdec

end Sys2Proof.Machine

namespace Sys2Proof.Machine

/-! SUPPORT. The encoding (30_encoding.md): what the decoder answers for a word of each format, how a decoded record gives
the bits of its word back, which words are illegal, and the control signals the decoder drives the datapath with. -/

/-! ## The decoder on a word put together from its fields (R53 to R58, R67) -/

/-- A JR word, bits 11:8 left open (R67). -/
theorem decode_jr_word (a : Nibble) (rs : RegIdx) : decode (wordOfNibbles 0x0 a (fieldOf rs) 0x3) = .legal (.jr rs) := by
  simp [decode, decodeExtended, extractFields_wordOfNibbles]

/-- A HALT word, bits 11:4 left open (R67). -/
theorem decode_halt_word (a b : Nibble) : decode (wordOfNibbles 0x0 a b 0x4) = .legal .halt := by
  simp [decode, decodeExtended, extractFields_wordOfNibbles]

/-- A jump word: bit 12 alone tells JAL from J (R58). -/
theorem decode_encodeJump (link : Bool) (target12 : BitVec 12) :
    decode (encodeJump link target12) = .legal (if link then .jal true target12 else .j false target12) := by
  cases link <;> simp [decode, extractFields_encodeJump]

/-- Settles O1, format by format. -/
theorem decodeOfEncodeIsIdentity : Obligations.DecodeOfEncodeIsIdentity := by
  intro i hwf
  cases i with
  | add | sub | and | or | xor | slt | ori | lw | sw => simp [encode, decode, extractFields_wordOfNibbles]
  | beqz | bnez | bltz | bgez => simp [encode, decode, extractFields_encodeBranch]
  | j link target12 =>
    obtain rfl : link = false := by simpa [Instr.WellFormed] using hwf
    exact decode_encodeJump false target12
  | jal link target12 =>
    obtain rfl : link = true := hwf
    exact decode_encodeJump true target12
  | adc | sbb => simp [encode, decode, decodeExtended, extractFields_wordOfNibbles]
  | jr rs => exact decode_jr_word 0 rs
  | halt => exact decode_halt_word 0 0

/-! ## Words as numbers (R76) -/

theorem toNat_append_eq_add {m n : Nat} (x : BitVec m) (y : BitVec n) : (x ++ y).toNat = 2 ^ n * x.toNat + y.toNat := by
  rw [BitVec.toNat_append, ← Nat.shiftLeft_add_eq_or_of_lt y.isLt, Nat.shiftLeft_eq, Nat.mul_comm]

@[simp] theorem fieldOf_toNat (r : RegIdx) : (fieldOf r).toNat = r := rfl

/-- A B-format word as a number (R57). -/
theorem encodeBranch_toNat (op : Nibble) (rs : RegIdx) (off8 : BitVec 8) :
    (encodeBranch op rs off8).toNat = 4096 * op.toNat + 256 * rs + off8.toNat := by
  simp only [encodeBranch, toNat_append_eq_add, fieldOf_toNat]
  omega

/-- A J-format word as a number (R58). -/
theorem encodeJump_toNat (link : Bool) (target12 : BitVec 12) :
    (encodeJump link target12).toNat = 0xE000 + 4096 * link.toNat + target12.toNat := by
  simp only [encodeJump, toNat_append_eq_add, BitVec.toNat_ofBool, BitVec.toNat_ofNat]
  omega

/-- Settles O3, format by format. -/
theorem encodedWordsAsNumbers : Obligations.EncodedWordsAsNumbers := by
  refine ⟨fun rd rs rt => ?_, fun ra rb n => ?_, fun rs off8 => ?_, fun target12 => ?_, fun rd rs => ?_, rfl⟩
  · simp [encode, wordOfNibbles_toNat]
  · simp [encode, wordOfNibbles_toNat]
  · simp [encode, encodeBranch_toNat]
  · simp [encode, encodeJump_toNat]
  · simp [encode, wordOfNibbles_toNat]

/-! ## The fields of every word (R51) -/

theorem exists_eq_wordOfNibbles (w : Word16) : ∃ n3 n2 n1 n0, w = wordOfNibbles n3 n2 n1 n0 :=
  ⟨_, _, _, _, (wordOfNibbles_of_nibbles w).symm⟩

/-- Settles O5: the extractor reads the nibbles a word is made of. -/
theorem fieldExtraction : Obligations.FieldExtraction := by
  intro w
  obtain ⟨n3, n2, n1, n0, rfl⟩ := exists_eq_wordOfNibbles w
  obtain ⟨hop, hfa, hfb, hfc⟩ := extractFields_wordOfNibbles n3 n2 n1 n0
  obtain ⟨hoff, htarget, hlink⟩ := wideFields_wordOfNibbles n3 n2 n1 n0
  rw [hop, hfa, hfb, hfc, wordOfNibbles_toNat]
  exact ⟨by omega, by omega, by omega, by omega, hoff, htarget, rfl, hlink⟩

/-! ## The B and J formats by nibbles (R51, R57, R58) -/

theorem encodeBranch_append (op : Nibble) (rs : RegIdx) (n1 n0 : Nibble) :
    encodeBranch op rs (n1 ++ n0) = wordOfNibbles op (fieldOf rs) n1 n0 := by
  apply BitVec.eq_of_toNat_eq
  simp only [encodeBranch_toNat, wordOfNibbles_toNat, toNat_append_eq_add, fieldOf_toNat]
  omega

/-- The link bit is the low bit of the opcode. -/
theorem encodeJump_append (link : Bool) (n2 n1 n0 : Nibble) :
    encodeJump link (n2 ++ n1 ++ n0) = wordOfNibbles (0b111#3 ++ BitVec.ofBool link) n2 n1 n0 := by
  apply BitVec.eq_of_toNat_eq
  simp only [encodeJump_toNat, wordOfNibbles_toNat, toNat_append_eq_add, BitVec.toNat_ofBool, BitVec.toNat_ofNat]
  omega

/-! ## A decoded record gives its word back (R65, R67) -/

/-- The bits of a JR word that the decoder reads (R67). -/
theorem jr_mask (n3 n2 n1 n0 : Nibble) : wordOfNibbles n3 n2 n1 n0 &&& ~~~0x0F00 = wordOfNibbles n3 0 n1 n0 := by
  unfold wordOfNibbles
  apply BitVec.eq_of_getLsbD_eq
  intro i hi
  simp only [BitVec.getLsbD_append, BitVec.getLsbD_and, BitVec.getLsbD_not]
  interval_cases i <;> simp

/-- What links a legal word to its record: the encoding can carry the record, and encodes it as the word without the bits the
decoder ignores. `encodeOfDecodeRestoresReadBits` shows it of every legal word. -/
def RestoresReadBits (w : Word16) (i : Instr) : Prop := i.WellFormed = true ∧ encode i = w &&& ~~~(ignoredBits i)

/-- A record whose encoding is the word, of an instruction without ignored bits. -/
theorem RestoresReadBits.of_encode {w : Word16} {i : Instr} (hwf : i.WellFormed = true) (hignored : ignoredBits i = 0)
    (hencode : encode i = w) : RestoresReadBits w i := by
  refine ⟨hwf, ?_⟩
  rw [hignored, hencode]
  exact (BitVec.and_allOnes).symm

theorem restoresReadBits_of_decodeExtended {n3 n2 n1 n0 : Nibble} {i : Instr} (hop : n3.toNat = 0)
    (h : decodeExtended (wordOfNibbles n3 n2 n1 n0) (extractFields (wordOfNibbles n3 n2 n1 n0)) = .legal i) :
    RestoresReadBits (wordOfNibbles n3 n2 n1 n0) i := by
  obtain rfl : n3 = 0 := BitVec.eq_of_toNat_eq hop
  simp only [decodeExtended, extractFields_wordOfNibbles] at h
  split at h
  case h_1 hf | h_2 hf =>
    cases h
    exact .of_encode rfl rfl (congrArg (wordOfNibbles 0 n2 n1) (BitVec.eq_of_toNat_eq hf.symm))
  case h_3 hf =>
    cases h
    obtain rfl : n0 = 3 := BitVec.eq_of_toNat_eq hf
    exact ⟨rfl, (jr_mask 0 n2 n1 3).symm⟩
  case h_4 hf =>
    cases h
    obtain rfl : n0 = 4 := BitVec.eq_of_toNat_eq hf
    exact ⟨rfl, (extended_mask 0 n2 n1 4).symm⟩
  case h_5 => cases h

/-- Settles O2, opcode by opcode. -/
theorem encodeOfDecodeRestoresReadBits : Obligations.EncodeOfDecodeRestoresReadBits := by
  intro w i h
  obtain ⟨n3, n2, n1, n0, rfl⟩ := exists_eq_wordOfNibbles w
  simp only [decode, extractFields_wordOfNibbles, wideFields_wordOfNibbles] at h
  split at h
  case h_1 hop => exact restoresReadBits_of_decodeExtended hop h
  case h_2 hop | h_3 hop | h_4 hop | h_5 hop | h_6 hop | h_7 hop | h_8 hop | h_9 hop | h_10 hop =>
    cases h
    exact RestoresReadBits.of_encode rfl rfl (congrArg (wordOfNibbles · n2 n1 n0) (BitVec.eq_of_toNat_eq hop.symm))
  case h_11 hop | h_12 hop | h_13 hop | h_14 hop =>
    cases h
    exact RestoresReadBits.of_encode rfl rfl
      ((encodeBranch_append _ _ n1 n0).trans (congrArg (wordOfNibbles · n2 n1 n0) (BitVec.eq_of_toNat_eq hop.symm)))
  case h_15 hop =>
    cases h
    obtain rfl : n3 = 0xE := BitVec.eq_of_toNat_eq hop
    exact RestoresReadBits.of_encode rfl rfl (encodeJump_append false n2 n1 n0)
  case h_16 =>
    cases h
    have hlt : n3.toNat < 16 := n3.isLt
    have hop : n3.toNat = 15 := by grind
    obtain rfl : n3 = 0xF := BitVec.eq_of_toNat_eq hop
    exact RestoresReadBits.of_encode rfl rfl (encodeJump_append true n2 n1 n0)

/-! ## Legal and illegal words (R66) -/

theorem decodeExtended_legal_iff (w : Word16) (f : Fields) :
    (∃ i, decodeExtended w f = .legal i) ↔ 1 ≤ f.fc.toNat ∧ f.fc.toNat ≤ 4 := by
  unfold decodeExtended
  split
  case h_1 hfc | h_2 hfc | h_3 hfc | h_4 hfc => simp [hfc]
  case h_5 => grind

theorem decode_of_op_zero {w : Word16} (hop : (extractFields w).op.toNat = 0) :
    decode w = decodeExtended w (extractFields w) := by
  simp only [decode, hop]

/-- All 15 primary opcodes other than 0 are assigned (R62). -/
theorem decode_legal_of_op_ne_zero {w : Word16} (hop : (extractFields w).op.toNat ≠ 0) : ∃ i, decode w = .legal i := by
  simp only [decode]
  split
  case h_1 hzero => exact absurd hzero hop
  all_goals exact ⟨_, rfl⟩

/-- A word is legal by its opcode, or by its `funct` in the extended group. -/
theorem decode_legal_iff (w : Word16) :
    (∃ i, decode w = .legal i) ↔
      (extractFields w).op.toNat ≠ 0 ∨ 1 ≤ (extractFields w).fc.toNat ∧ (extractFields w).fc.toNat ≤ 4 := by
  by_cases hop : (extractFields w).op.toNat = 0
  · simp [decode_of_op_zero hop, decodeExtended_legal_iff, hop]
  · simp [decode_legal_of_op_ne_zero hop, hop]

theorem isIllegal_eq_false_iff (w : Word16) : isIllegal w = false ↔ ∃ i, decode w = .legal i := by
  unfold isIllegal
  cases decode w <;> simp

/-- The illegal words as numbers. -/
theorem isIllegal_iff_toNat (w : Word16) :
    isIllegal w = true ↔ w.toNat / 4096 = 0 ∧ (w.toNat % 16 = 0 ∨ 5 ≤ w.toNat % 16) := by
  obtain ⟨hop, -, -, hfc, -⟩ := fieldExtraction w
  rw [← Bool.not_eq_false, isIllegal_eq_false_iff, decode_legal_iff, hop, hfc]
  omega

/-- A predicate of period `a` holds equally often in every stretch of `a` numbers. -/
theorem count_mul_of_periodic {p : Nat → Prop} [DecidablePred p] {a : Nat} (hp : ∀ n, p (a + n) ↔ p n) (k : Nat) :
    Nat.count p (a * k) = k * Nat.count p a := by
  induction k with
  | zero => simp
  | succ k ih =>
    rw [Nat.mul_succ, Nat.add_comm, Nat.count_add]
    simp only [hp, ih]
    ring

/-- Of every 16 words of the extended group, 12 are illegal. -/
theorem illegal_count : ((List.range 65536).countP fun n => isIllegal (BitVec.ofNat 16 n)) = 3072 := by
  have hlow : (List.range 4096).countP (fun n => isIllegal (BitVec.ofNat 16 n)) = 3072 := by
    calc (List.range 4096).countP (fun n => isIllegal (BitVec.ofNat 16 n))
        = Nat.count (fun n => n % 16 = 0 ∨ 5 ≤ n % 16) (16 * 256) := by
          refine List.countP_congr fun n hn => ?_
          have hn' : n < 4096 := List.mem_range.mp hn
          rw [isIllegal_iff_toNat, BitVec.toNat_ofNat, decide_eq_true_eq]
          omega
      _ = 256 * 12 := count_mul_of_periodic (fun n => by omega) 256
  have hhigh : (List.range 61440).countP ((fun n => isIllegal (BitVec.ofNat 16 n)) ∘ (4096 + ·)) = 0 := by
    refine List.countP_eq_zero.mpr fun n hn => ?_
    have hn' : n < 61440 := List.mem_range.mp hn
    rw [Function.comp_apply, isIllegal_iff_toNat, BitVec.toNat_ofNat]
    omega
  rw [show 65536 = 4096 + 61440 from rfl, List.range_add, List.countP_append, List.countP_map, hlow, hhigh]

/-- Settles O6, from the illegal words as numbers. -/
theorem illegalWordsExactly : Obligations.IllegalWordsExactly := by
  refine ⟨isIllegal_iff_toNat, illegal_count, fun w hw => ?_, fun s => step_of_meetsIllegal,
    fun w => (isIllegal_eq_false_iff w).mp, by decide, by decide, fun s => ⟨_, rfl, rfl⟩⟩
  obtain ⟨hop, -⟩ := (isIllegal_iff_toNat w).mp hw
  omega

/-! ## The opcode table (R62, R63) -/

/-- The rows of the opcode table, each by an instruction of it. `tableRow_mem_opcodeTable` ties the list to `tableRow`. -/
def opcodeTable : List OpcodeRow :=
  [.add 0 0 0, .sub 0 0 0, .and 0 0 0, .or 0 0 0, .xor 0 0 0, .slt 0 0 0, .ori 0 0 0, .lw 0 0 0, .sw 0 0 0, .beqz 0 0,
    .bnez 0 0, .bltz 0 0, .bgez 0 0, .j false 0, .jal true 0, .adc 0 0, .sbb 0 0, .jr 0, .halt].map tableRow

theorem tableRow_mem_opcodeTable (i : Instr) : tableRow i ∈ opcodeTable := by
  cases i <;> simp [opcodeTable, tableRow]

/-- Two rows that agree on the bits both fix are one row. -/
theorem opcodeTable_disjoint : ∀ r ∈ opcodeTable, ∀ r' ∈ opcodeTable,
    r.pattern &&& r'.mask = r'.pattern &&& r.mask → r = r' := by
  decide

/-- The fixed bits of a row: an opcode other than 0, or a `funct` of the extended group. -/
theorem opcodeTable_fixed_bits : ∀ r ∈ opcodeTable,
    r.mask = 0xF000 ∧ (extractFields r.pattern).op.toNat ≠ 0 ∨
      r.mask = 0xF00F ∧ 1 ≤ (extractFields r.pattern).fc.toNat ∧ (extractFields r.pattern).fc.toNat ≤ 4 := by
  decide

/-- A word with the fixed bits of a row is legal. -/
theorem decode_legal_of_match {w : Word16} {j : Instr} (h : w &&& (tableRow j).mask = (tableRow j).pattern) :
    ∃ i, decode w = .legal i := by
  rw [decode_legal_iff]
  obtain ⟨n3, n2, n1, n0, rfl⟩ := exists_eq_wordOfNibbles w
  rcases opcodeTable_fixed_bits _ (tableRow_mem_opcodeTable j) with ⟨hmask, hop⟩ | ⟨hmask, hfc⟩
  · rw [← h, hmask, primary_mask] at hop
    simpa only [extractFields_wordOfNibbles] using Or.inl hop
  · rw [← h, hmask, extended_mask] at hfc
    simpa only [extractFields_wordOfNibbles] using Or.inr hfc

/-- The word of every well-formed instruction has the fixed bits of its row (R62, R63, R76). -/
theorem encode_and_mask (i : Instr) : Laws.TableMatch.Statement i := by
  cases i with
  | add => exact Laws.TableMatch.add _ _ _
  | sub => exact Laws.TableMatch.sub _ _ _
  | and => exact Laws.TableMatch.and _ _ _
  | or => exact Laws.TableMatch.or _ _ _
  | xor => exact Laws.TableMatch.xor _ _ _
  | slt => exact Laws.TableMatch.slt _ _ _
  | ori => exact Laws.TableMatch.ori _ _ _
  | lw => exact Laws.TableMatch.lw _ _ _
  | sw => exact Laws.TableMatch.sw _ _ _
  | beqz => exact Laws.TableMatch.beqz _ _
  | bnez => exact Laws.TableMatch.bnez _ _
  | bltz => exact Laws.TableMatch.bltz _ _
  | bgez => exact Laws.TableMatch.bgez _ _
  | j => exact Laws.TableMatch.j _ _
  | jal => exact Laws.TableMatch.jal _ _
  | adc => exact Laws.TableMatch.adc _ _
  | sbb => exact Laws.TableMatch.sbb _ _
  | jr => exact Laws.TableMatch.jr _
  | halt => exact Laws.TableMatch.halt

/-- No ignored bit is a fixed bit of the row (R67). -/
theorem not_ignoredBits_and_mask (i : Instr) : ~~~(ignoredBits i) &&& (tableRow i).mask = (tableRow i).mask := by
  cases i <;> simp only [ignoredBits, tableRow] <;> decide

/-- A legal word has the fixed bits of its row. -/
theorem match_of_decode {w : Word16} {i : Instr} (h : decode w = .legal i) :
    w &&& (tableRow i).mask = (tableRow i).pattern := by
  obtain ⟨hwf, hencode⟩ := encodeOfDecodeRestoresReadBits w i h
  calc w &&& (tableRow i).mask = (w &&& ~~~(ignoredBits i)) &&& (tableRow i).mask := by
        rw [BitVec.and_assoc, not_ignoredBits_and_mask]
    _ = encode i &&& (tableRow i).mask := by rw [hencode]
    _ = (tableRow i).pattern := encode_and_mask i hwf

/-- Settles O4: a word that has the fixed bits of a row is legal, and it has the fixed bits of one row only. -/
theorem decodeFollowsOpcodeTable : Obligations.DecodeFollowsOpcodeTable := by
  refine ⟨fun w i => match_of_decode, fun w j hj => ?_⟩
  obtain ⟨i, hi⟩ := decode_legal_of_match hj
  refine ⟨i, hi, opcodeTable_disjoint _ (tableRow_mem_opcodeTable i) _ (tableRow_mem_opcodeTable j) ?_⟩
  rw [← match_of_decode hi, ← hj, BitVec.and_assoc, BitVec.and_assoc, BitVec.and_comm (tableRow i).mask]

/-! ## The unused bits (R67) -/

theorem encodeJump_true_eq (b11 : Bool) (t : BitVec 11) :
    encodeJump true (BitVec.ofBool b11 ++ t) = 0xF#4 ++ BitVec.ofBool b11 ++ t := by
  apply BitVec.eq_of_toNat_eq
  simp only [encodeJump_toNat, toNat_append_eq_add, BitVec.toNat_ofNat, Bool.toNat_true]
  omega

/-- The target JAL loads does not depend on bit 11 (R61). -/
theorem jalTarget_append (b11 : Bool) (t : BitVec 11) :
    jalTarget (BitVec.ofBool b11 ++ t) = jalTarget (BitVec.ofBool false ++ t) := by
  apply BitVec.eq_of_toNat_eq
  simp only [jalTarget_toNat, toNat_append_eq_add]
  omega

theorem exec_jal_congr {target12 target12' : BitVec 12} (h : jalTarget target12 = jalTarget target12') (s : State) :
    exec (.jal true target12) s = exec (.jal true target12') s := by
  change execJal true target12 s = execJal true target12' s
  simp only [execJal, h]

/-- Settles O7. -/
theorem unusedBitsAreIgnored : Obligations.UnusedBitsAreIgnored := by
  refine ⟨decode_jr_word, decode_halt_word, fun b11 t s => ⟨?_, exec_jal_congr (jalTarget_append b11 t) s⟩⟩
  rw [← encodeJump_true_eq]
  exact decode_encodeJump true _

/-! ## The control signals (R69) -/

/-- The commit of the ALU as the datapath makes it: `pc` moves on from where it was at the start (R83). -/
theorem commitAlu_eq_writePc (rd : RegIdx) (o : AluOut) (s : State) :
    commitAlu rd o s = writePc (nextPc s.pc) (writeFlags o.c o.z (writeReg rd o.r s)) := by
  rw [commitAlu, advancePc, writeFlags_pc, writeReg_pc]

theorem datapath_branch {taken : Bool} {cond : BranchCond} {rs : RegIdx} {s : State}
    (hcond : condHolds (readReg s rs) cond = taken) (off8 : BitVec 8) :
    datapath (pcControls (.branch cond rs off8)) s = branchIf taken off8 s := by
  rw [branchIf_spec, ← hcond]
  rfl

/-- The datapath under an instruction's controls makes what the instruction does. -/
theorem exec_eq_datapath (i : Instr) (s : State) : exec i s = .next (datapath (controls (.legal i)) s) := by
  cases i with
  | add | sub | and | or | xor | slt | ori | adc | sbb => exact congrArg Host.Outcome.next (commitAlu_eq_writePc _ _ s)
  | lw =>
    refine congrArg Host.Outcome.next ?_
    rw [advancePc, writeReg_pc]
    rfl
  | beqz => exact congrArg Host.Outcome.next (datapath_branch (by simp [condHolds, beq_eq_decide]) _).symm
  | bnez => exact congrArg Host.Outcome.next (datapath_branch (by simp [condHolds, bne, beq_eq_decide]) _).symm
  | bltz => exact congrArg Host.Outcome.next (datapath_branch (by simp [condHolds, signed4_neg_iff]) _).symm
  | bgez => exact congrArg Host.Outcome.next (datapath_branch (by simp [condHolds, ← not_lt, signed4_neg_iff]) _).symm
  | sw | j | jal | jr | halt => rfl

theorem raiseIllegal_eq_datapath (w : Word16) (s : State) : raiseIllegal s = datapath (controls (.illegal w)) s := rfl

/-- Settles O41: an illegal word is a row of the table of controls as well. -/
theorem controlSignalsRefineTheStep : Obligations.ControlSignalsRefineTheStep := by
  intro s hrun
  cases hdec : decode (iFetch s.imem s.pc) with
  | legal i => rw [step_of_legal hrun hdec, exec_eq_datapath]
  | illegal w => rw [step_of_meetsIllegal ⟨hrun, (isIllegal_iff _).mpr ⟨w, hdec⟩⟩, raiseIllegal_eq_datapath w]

/-! ## Words written out (R62, R63, R66) -/

/-- Settles O8, by running the decoder on each word. -/
theorem writtenWordsDecode : Obligations.WrittenWordsDecode := by
  unfold Obligations.WrittenWordsDecode
  decide

end Sys2Proof.Machine

namespace Sys2Proof.Machine

/-! SUPPORT. The step with its result, the run loop and the run it pauses (R80, R88, R89), the inputs at an instruction boundary
(R187), and arithmetic on two nibbles (R92, R93). -/

/-! ## The result of a step (R80) -/

/-- Settles O30. -/
theorem stepRunsDecodedInstruction : Obligations.StepRunsDecodedInstruction := by
  intro s i hrun hdec
  obtain ⟨hwf, -⟩ := encodeOfDecodeRestoresReadBits _ i hdec
  exact ⟨hwf, step_of_legal hrun hdec⟩

theorem engineStep_answers_next (s : State) : ∃ t r, engineStep s = .next (t, r) := by
  obtain ⟨t, ht⟩ := step_answers_next s
  exact ⟨t, step_next_iff.mp ht⟩

theorem engineStep_result_halted {s t : State} {r : StepResult} (h : engineStep s = .next (t, r)) :
    r.halted = decide (t.run = .halted) := by
  rcases engineStep_cases h with ⟨hrun, rfl, rfl⟩ | ⟨-, -, rfl, rfl⟩ | ⟨-, i, -, -, rfl⟩
  · simp [hrun]
  · rfl
  · rfl

theorem running_of_engineStep_not_halted {s t : State} {r : StepResult} (h : engineStep s = .next (t, r))
    (hr : r.halted = false) : t.run = .running := by
  rw [engineStep_result_halted h] at hr
  cases hrun : t.run with
  | running => rfl
  | halted => simp [hrun] at hr

/-- A machine that is Running records no fault, the part of the invariant that the result of a step depends on (R19). -/
def State.CleanWhileRunning (s : State) : Prop := s.run = .running → s.fault = none

/-- The result of an executed instruction reports no fault, so it shows the state only where none was recorded before. -/
theorem engineStep_result_fault {s t : State} {r : StepResult} (hclean : s.CleanWhileRunning)
    (h : engineStep s = .next (t, r)) : r.fault = t.fault := by
  rcases engineStep_cases h with ⟨-, rfl, rfl⟩ | ⟨-, -, rfl, rfl⟩ | ⟨hrun, i, -, hexec, rfl⟩
  · rfl
  · rfl
  · rw [exec_fault hexec, hclean hrun]

/-- Settles O35. -/
theorem stepResultShowsTheState : Obligations.StepResultShowsTheState :=
  fun _ _ _ hclean h => ⟨engineStep_result_halted h, engineStep_result_fault hclean h⟩

/-! ## The host's iterated step -/

theorem step_keeps_clean {s t : State} (hclean : s.CleanWhileRunning) (h : step s = .next t) : t.CleanWhileRunning := by
  rcases step_next_cases h with ⟨-, rfl⟩ | ⟨-, rfl⟩ | ⟨hrun, i, -, hexec⟩
  · exact hclean
  · exact fun hrun => by simp at hrun
  · exact fun _ => by rw [exec_fault hexec, hclean hrun]

theorem run_keeps_clean {n : Nat} {s t : State} (hclean : s.CleanWhileRunning) (h : Sys2Proof.core.run n s = .next t) :
    t.CleanWhileRunning := by
  induction n generalizing s with
  | zero => cases h; exact hclean
  | succ n ih =>
    obtain ⟨u, hu⟩ := step_answers_next s
    rw [core_run_succ n hu] at h
    exact ih (step_keeps_clean hclean hu) h

theorem core_run_succ_of_engineStep (n : Nat) {s t : State} {r : StepResult} (h : engineStep s = .next (t, r)) :
    Sys2Proof.core.run (n + 1) s = Sys2Proof.core.run n t :=
  core_run_succ n (step_next_iff.mpr ⟨r, h⟩)

/-! ## The run loop by its first step (R88) -/

theorem runSteps_succ_of_halted (n : Nat) {s t : State} {r : StepResult} (h : engineStep s = .next (t, r))
    (hr : r.halted = true) : runSteps (n + 1) s = .next (t, some r) := by
  simp [runSteps, h, hr]

theorem runSteps_one {s t : State} {r : StepResult} (h : engineStep s = .next (t, r)) :
    runSteps 1 s = .next (t, some r) := by
  simp [runSteps, h]

/-- A run of at least one step has a result. -/
theorem runSteps_succ_answers (n : Nat) (s : State) : ∃ t r, runSteps (n + 1) s = .next (t, some r) := by
  induction n generalizing s with
  | zero =>
    obtain ⟨t, r, h⟩ := engineStep_answers_next s
    exact ⟨t, r, runSteps_one h⟩
  | succ n ih =>
    obtain ⟨t, r, h⟩ := engineStep_answers_next s
    cases hr : r.halted with
    | true => exact ⟨t, r, runSteps_succ_of_halted _ h hr⟩
    | false =>
      obtain ⟨u, q, hq⟩ := ih t
      exact ⟨u, q, by rw [runSteps]; simp [h, hr, hq]⟩

/-- After a step that does not halt, the rest of the run is a run from where the step left the machine. -/
theorem runSteps_succ_of_not_halted (n : Nat) {s t : State} {r : StepResult} (h : engineStep s = .next (t, r))
    (hr : r.halted = false) : runSteps (n + 2) s = runSteps (n + 1) t := by
  obtain ⟨u, q, hq⟩ := runSteps_succ_answers n t
  rw [runSteps]
  simp [h, hr, hq]

/-! ## The last step of a run (R88) -/

/-- The step that answers `t` and `q` is the last one a run of `n` steps from `s` makes: it is made after `m` steps in a machine
that none of them halted, and it halts or spends the budget. -/
def LastStep (n : Nat) (s t : State) (q : StepResult) : Prop :=
  ∃ m u, m < n ∧ Sys2Proof.core.run m s = .next u ∧ engineStep u = .next (t, q) ∧ (m = 0 ∨ u.run = .running) ∧
    (q.halted = true ∨ m + 1 = n)

theorem LastStep.first {n : Nat} {s t : State} {q : StepResult} (h : engineStep s = .next (t, q))
    (hend : q.halted = true ∨ n = 0) : LastStep (n + 1) s t q :=
  ⟨0, s, n.succ_pos, rfl, h, .inl rfl, hend.imp_right (by omega)⟩

/-- The last step of a run that goes on after its first step is the last step of the rest. -/
theorem LastStep.later {n : Nat} {s v t : State} {r q : StepResult} (h : engineStep s = .next (v, r))
    (hr : r.halted = false) (hlast : LastStep n v t q) : LastStep (n + 1) s t q := by
  obtain ⟨m, u, hm, hrun, hstep, hbefore, hend⟩ := hlast
  refine ⟨m + 1, u, by omega, by rw [core_run_succ_of_engineStep m h, hrun], hstep, .inr ?_, hend.imp_right (by omega)⟩
  rcases hbefore with rfl | hu
  · cases hrun
    exact running_of_engineStep_not_halted h hr
  · exact hu

theorem LastStep.result_halted {n : Nat} {s t : State} {q : StepResult} (h : LastStep n s t q) :
    q.halted = decide (t.run = .halted) := by
  obtain ⟨_, _, -, -, hstep, -, -⟩ := h
  exact engineStep_result_halted hstep

theorem LastStep.result_fault {n : Nat} {s t : State} {q : StepResult} (hclean : s.CleanWhileRunning)
    (h : LastStep n s t q) : q.fault = t.fault := by
  obtain ⟨_, _, -, hrun, hstep, -, -⟩ := h
  exact engineStep_result_fault (run_keeps_clean hclean hrun) hstep

/-- What a run of at least one step answers, by induction on the budget. -/
theorem runSteps_succ_spec (n : Nat) (s : State) :
    ∃ t q, runSteps (n + 1) s = .next (t, some q) ∧ Sys2Proof.core.run (n + 1) s = .next t ∧ LastStep (n + 1) s t q := by
  induction n generalizing s with
  | zero =>
    obtain ⟨t, q, h⟩ := engineStep_answers_next s
    exact ⟨t, q, runSteps_one h, core_run_succ_of_engineStep 0 h, .first h (.inr rfl)⟩
  | succ n ih =>
    obtain ⟨v, r, h⟩ := engineStep_answers_next s
    cases hr : r.halted with
    | true =>
      have hv : v.run = .halted := by simpa [engineStep_result_halted h] using hr
      exact ⟨v, r, runSteps_succ_of_halted _ h hr, by rw [core_run_succ_of_engineStep _ h, run_of_halted hv],
        .first h (.inl hr)⟩
    | false =>
      obtain ⟨t, q, hruns, hcore, hlast⟩ := ih v
      exact ⟨t, q, by rw [runSteps_succ_of_not_halted n h hr, hruns], by rw [core_run_succ_of_engineStep _ h, hcore],
        hlast.later h hr⟩

/-- Settles O39. -/
theorem runLoopIsIteratedStep : Obligations.RunLoopIsIteratedStep := by
  intro n s
  cases n with
  | zero => exact ⟨s, none, rfl, rfl, by simp, by simp⟩
  | succ n =>
    obtain ⟨t, q, hruns, hcore, hlast⟩ := runSteps_succ_spec n s
    refine ⟨t, some q, hruns, hcore, by simp, fun q' hq => ?_⟩
    cases hq
    exact ⟨hlast, fun hclean => ⟨hlast.result_halted, hlast.result_fault hclean⟩⟩

/-! ## The paused run (R89) -/

/-- A run whose result is not halted has made every step of its budget and can be continued. -/
theorem runSteps_add_of_not_halted {m : Nat} {s t : State} {r : StepResult} (h : runSteps m s = .next (t, some r))
    (hr : r.halted = false) (n : Nat) : runSteps (m + (n + 1)) s = runSteps (n + 1) t := by
  induction m generalizing s with
  | zero => simp [runSteps] at h
  | succ m ih =>
    obtain ⟨v, q, hstep⟩ := engineStep_answers_next s
    cases hq : q.halted with
    | true =>
      rw [runSteps_succ_of_halted m hstep hq] at h
      cases h
      simp [hr] at hq
    | false =>
      have hrest (k : Nat) : runSteps (k + 2) s = runSteps (k + 1) v := runSteps_succ_of_not_halted k hstep hq
      cases m with
      | zero =>
        rw [runSteps_one hstep] at h
        cases h
        rw [← hrest n, Nat.add_comm]
      | succ m =>
        rw [hrest m] at h
        calc runSteps (m + 1 + 1 + (n + 1)) s = runSteps (m + 1 + n + 2) s := by congr 1; omega
          _ = runSteps (m + 1 + (n + 1)) v := hrest (m + 1 + n)
          _ = runSteps (n + 1) t := ih h

/-- Settles O40: the result shows the state, and a run that is not halted can be continued. -/
theorem pausedRunResumes : Obligations.PausedRunResumes := by
  intro m n s t r hrun hfault h hr
  have hclean : s.CleanWhileRunning := fun _ => hfault
  obtain ⟨t', r', hruns, hcore, -, hresult⟩ := runLoopIsIteratedStep m s
  rw [h] at hruns
  cases hruns
  obtain ⟨⟨_, _, -, -, hstep, -, -⟩, hshows⟩ := hresult r rfl
  obtain ⟨-, hrfault⟩ := hshows hclean
  have htrun : t.run = .running := running_of_engineStep_not_halted hstep hr
  have htfault : t.fault = none := run_keeps_clean hclean hcore htrun
  exact ⟨htrun, htfault, hrfault.trans htfault, runSteps_add_of_not_halted h hr n⟩

/-! ## The inputs at an instruction boundary (R89, R187) -/

/-- Only LW takes the read data, and it drives the address it is read at. -/
theorem controls_dmem_of_loadTo {d : Decoded} {rs : RegIdx} (h : (controls d).regWrite = .loadTo rs) :
    ∃ base off4, (controls d).dmem = .read base off4 := by
  cases d with
  | illegal => cases h
  | legal i =>
    cases i with
    | lw _ base off4 => exact ⟨base, off4, rfl⟩
    | add | sub | and | or | xor | slt | ori | adc | sbb | sw | beqz | bnez | bltz | bgez | j | jal | jr | halt => cases h

/-- The read data may be anything while no address is driven: the register write does not use it then. -/
theorem regWriteUnder_of_answer {d : Decoded} {rdata : Nibble} {s : State}
    (hanswer : ∀ a, dmemAddress s (controls d).dmem = some a → rdata = memRead s a) (t : State) :
    regWriteUnder (controls d) (some rdata) s t = regWriteUnder (controls d) (dmemReadData s (controls d).dmem) s t := by
  cases hwrite : (controls d).regWrite with
  | none | aluTo | link => simp [regWriteUnder, hwrite]
  | loadTo rs =>
    obtain ⟨base, off4, hdmem⟩ := controls_dmem_of_loadTo hwrite
    have hdata : dmemReadData s (controls d).dmem = some rdata := by
      rw [hdmem] at hanswer ⊢
      exact congrArg some (hanswer _ rfl).symm
    rw [hdata]

theorem activeDmem_of_starts {i : PortsIn} {s : State} (h : startsInstruction i s = true) :
    activeDmem i s = (controls (decode i.imemRdata)).dmem := if_pos h

/-- When an instruction starts and the memories answer, the ports make the step of the datapath. -/
theorem boundary_eq_datapath {i : PortsIn} {s : State} (hstart : startsInstruction i s = true)
    (hanswer : memoriesAnswer i s = true) : boundary i s = datapath (controls (decode (iFetch s.imem s.pc))) s := by
  obtain ⟨hrst, -, -⟩ := (startsInstruction_iff i s).mp hstart
  obtain ⟨hword, hdata⟩ := (memoriesAnswer_iff i s).mp hanswer
  have hactive := activeDmem_of_starts hstart
  have hread : ∀ a, dmemAddress s (controls (decode i.imemRdata)).dmem = some a → i.dmemRdata = memRead s a := by
    rw [← hactive]
    exact hdata
  calc boundary i s
    _ = storeFromPorts (portsOut i s) (coreUnder (controls (decode i.imemRdata)) (some i.dmemRdata) s) := by
      simp [boundary, hrst, hstart]
    _ = datapath (controls (decode i.imemRdata)) s := by
      rw [storeFromPorts_portsOut i _ s _ hactive, datapath, coreUnder, coreUnder, regWriteUnder_of_answer hread]
    _ = datapath (controls (decode (iFetch s.imem s.pc))) s := by rw [hword]

theorem boundary_of_not_starts {i : PortsIn} {s : State} (hrst : i.rst = false) (hstart : startsInstruction i s = false) :
    boundary i s = s := by
  simp [boundary, hrst, hstart]

/-- Settles O50: a halted machine starts no instruction, and a Running one makes the step of the datapath. -/
theorem boundaryInputsActBetweenSteps : Obligations.BoundaryInputsActBetweenSteps := by
  intro i s
  refine ⟨fun hrst => if_pos hrst, fun hrst hen => ?_, fun hrst hen hanswer => ?_⟩
  · exact boundary_of_not_starts hrst (by simp [startsInstruction, hen])
  · cases hrun : s.run with
    | halted => rw [boundary_of_not_starts hrst (by simp [startsInstruction, hrun]), step_of_halted hrun]
    | running =>
      have hstart : startsInstruction i s = true := (startsInstruction_iff i s).mpr ⟨hrst, hen, hrun⟩
      rw [boundary_eq_datapath hstart hanswer, controlSignalsRefineTheStep s hrun]

/-! ## Arithmetic on two nibbles (R92, R93) -/

theorem readReg_commitAlu_self {rd : RegIdx} (hrd : rd ≠ 0) (o : AluOut) (s : State) :
    readReg (commitAlu rd o s) rd = o.r := by
  obtain ⟨hreg, -⟩ := commitAlu_spec rd o s
  simp [hreg, hrd]

theorem readReg_commitAlu_of_ne {rd j : RegIdx} (hj : j ≠ rd) (o : AluOut) (s : State) :
    readReg (commitAlu rd o s) j = readReg s j := by
  obtain ⟨hreg, -⟩ := commitAlu_spec rd o s
  simp [hreg, hj]

/-- The carry between the two additions makes them one addition of bytes. -/
theorem alu_add_chain (ah al bh bl : Nibble) :
    16 * (alu .add ah bh (alu .add al bl false).c).r.toNat + (alu .add al bl false).r.toNat =
      ((16 * ah.toNat + al.toNat) + (16 * bh.toNat + bl.toNat)) % 256 ∧
    (alu .add ah bh (alu .add al bl false).c).c =
      decide ((16 * ah.toNat + al.toNat) + (16 * bh.toNat + bl.toNat) > 255) := by
  rw [alu_r_add, alu_r_add, alu_c_add ah, decide_eq_decide, alu_c_add al, Bool.toNat_false]
  by_cases hcarry : al.toNat + bl.toNat + 0 > 15
  · rw [decide_eq_true hcarry, Bool.toNat_true]
    omega
  · rw [decide_eq_false hcarry, Bool.toNat_false]
    omega

/-- The borrow between the two subtractions makes them one subtraction of bytes. -/
theorem alu_sub_chain (ah al bh bl : Nibble) :
    (16 * (alu .sub ah bh (alu .sub al bl false).c).r.toNat + (alu .sub al bl false).r.toNat : Int) =
      ((16 * ah.toNat + al.toNat) - (16 * bh.toNat + bl.toNat) : Int) % 256 ∧
    (alu .sub ah bh (alu .sub al bl false).c).c =
      decide (16 * ah.toNat + al.toNat < 16 * bh.toNat + bl.toNat) := by
  rw [alu_r_sub, alu_r_sub, alu_c_sub_eq_lt ah, decide_eq_decide, alu_c_sub_eq_lt al, Bool.toNat_false]
  by_cases hborrow : al.toNat < bl.toNat + 0
  · rw [decide_eq_true hborrow, Bool.toNat_true]
    omega
  · rw [decide_eq_false hborrow, Bool.toNat_false]
    omega

/-- The operands of an instruction that follows a commit to another register: the registers of before, the new carry. -/
theorem alu_after_commitAlu {rd a b : RegIdx} (ha : a ≠ rd) (hb : b ≠ rd) (fn : AluFn) (o : AluOut) (s : State) :
    alu fn (readReg (commitAlu rd o s) a) (readReg (commitAlu rd o s) b) (commitAlu rd o s).c =
      alu fn (readReg s a) (readReg s b) o.c := by
  rw [readReg_commitAlu_of_ne ha, readReg_commitAlu_of_ne hb, commitAlu_c]

/-- Settles O16: after the pair the two destinations hold the chained outputs of the ALU. -/
theorem twoNibbleArithmeticChains : Obligations.TwoNibbleArithmeticChains := by
  intro lo hi blo bhi s hlo hhi hne hbhi
  have hhigh (o p : AluOut) : readReg (commitAlu hi p (commitAlu lo o s)) hi = p.r := readReg_commitAlu_self hhi p _
  have hlow (o p : AluOut) : readReg (commitAlu hi p (commitAlu lo o s)) lo = o.r := by
    rw [readReg_commitAlu_of_ne hne, readReg_commitAlu_self hlo]
  refine ⟨⟨_, _, rfl, rfl, ?_⟩, ⟨_, _, rfl, rfl, ?_⟩⟩
  · rw [alu_after_commitAlu hne.symm hbhi.symm, hhigh, hlow, commitAlu_c]
    exact alu_add_chain _ _ _ _
  · rw [alu_after_commitAlu hne.symm hbhi.symm, hhigh, hlow, commitAlu_c]
    exact alu_sub_chain _ _ _ _

end Sys2Proof.Machine

namespace Sys2Proof.Machine

/-! SUPPORT. The register-register ALU instructions (41_alu_register.md): what their commit leaves in the destination and
leaves alone, and the outputs of the ALU when no carry comes in. -/

/-- The destination after the commit of an ALU instruction; a write to register 0 is discarded (R11, R12). -/
theorem readReg_commitAlu_dest (rd : RegIdx) (o : AluOut) (s : State) :
    readReg (commitAlu rd o s) rd = if rd = 0 then 0 else o.r := by
  split
  · next hrd => rw [hrd, readReg_zero]
  · next hrd => exact readReg_commitAlu_self hrd o s

/-- The commit of an ALU instruction leaves the frame alone (R86). -/
theorem aluFrame_commitAlu (rd : RegIdx) (o : AluOut) (s : State) : aluFrame rd s (commitAlu rd o s) := by
  obtain ⟨-, -, -, -, hrun, hfault, hdmem, himem⟩ := commitAlu_spec rd o s
  refine ⟨fun j hj => ?_, fun a => ?_, fun a => ?_, hrun, hfault⟩
  · exact readReg_commitAlu_of_ne (List.ne_of_not_mem_cons hj) o s
  · rw [memRead, hdmem, memRead]
  · rw [himem]

/-- The `pc` after the commit and its frame, the part that no output of the ALU shows in (R84, R86). -/
theorem commitAlu_pc_and_frame (rd : RegIdx) (o : AluOut) (s : State) :
    (commitAlu rd o s).pc = s.pc + 4 ∧ aluFrame rd s (commitAlu rd o s) :=
  ⟨(commitAlu_pc rd o s).trans (nextPc_eq s.pc), aluFrame_commitAlu rd o s⟩

/-- The destination of a comparison is 1 or 0 (R105). -/
theorem alu_r_slt (a b : Nibble) (cin : Bool) : (alu .slt a b cin).r = if a.toInt < b.toInt then 1 else 0 := by
  simp only [alu, signed4, sext4_eq_toInt]

/-- Settles O9: the outputs of the ALU without a carry in, committed. -/
theorem addResultAndFrame : Obligations.AddResultAndFrame := by
  intro rd rs rt s
  refine ⟨decodeOfEncodeIsIdentity (.add rd rs rt) rfl, _, rfl, ?_, alu_c_add _ _ false, alu_z_add _ _ false,
    commitAlu_pc_and_frame rd _ s⟩
  rw [readReg_commitAlu_dest, apply_ite BitVec.toNat, alu_r_add]
  rfl

/-- Settles O10: the outputs of the ALU without a borrow in, committed. -/
theorem subResultAndFrame : Obligations.SubResultAndFrame := by
  intro rd rs rt s
  refine ⟨decodeOfEncodeIsIdentity (.sub rd rs rt) rfl, _, rfl, ?_, alu_c_sub_eq_lt _ _ false, ?_,
    commitAlu_pc_and_frame rd _ s⟩
  · rw [readReg_commitAlu_dest, apply_ite BitVec.toNat, Nat.cast_ite, alu_r_sub, Bool.toNat_false, Int.natCast_zero,
      Int.sub_zero]
    rfl
  · rw [commitAlu_z, alu_z_sub, Bool.toNat_false, Int.natCast_zero, Int.sub_zero]

/-- Settles O11: the three functions differ in the result alone. -/
theorem bitwiseResultsAndFrame : Obligations.BitwiseResultsAndFrame := by
  intro rd rs rt s
  refine ⟨decodeOfEncodeIsIdentity (.and rd rs rt) rfl, decodeOfEncodeIsIdentity (.or rd rs rt) rfl,
    decodeOfEncodeIsIdentity (.xor rd rs rt) rfl, ?_⟩
  simp only [List.forall_mem_cons]
  refine ⟨?and, ?or, ?xor, List.forall_mem_nil _⟩
  case and | or | xor =>
    exact ⟨_, rfl, readReg_commitAlu_dest rd _ s, rfl, rfl, commitAlu_pc_and_frame rd _ s⟩

/-- Settles O12: the result is 1 when the comparison holds, and `Z` is set when it does not. -/
theorem sltResultAndFrame : Obligations.SltResultAndFrame := by
  intro rd rs rt s
  refine ⟨decodeOfEncodeIsIdentity (.slt rd rs rt) rfl, _, rfl, ?_, rfl, alu_z_slt _ _, commitAlu_pc_and_frame rd _ s⟩
  rw [readReg_commitAlu_dest, alu_r_slt]
  by_cases hrd : rd = 0
  · simp [hrd]
  · simp [hrd]

end Sys2Proof.Machine

namespace Sys2Proof.Machine

/-! SUPPORT. The immediate ALU instruction (42_alu_immediate.md). -/

/-- Settles O13: the disjunction with the immediate as it stands in the word, committed (R59, R110). -/
theorem oriResultAndFrame : Obligations.OriResultAndFrame := by
  intro rd rs imm4 s
  have hexec : exec (.ori rd rs imm4) s = .next (commitAlu rd (alu .or (readReg s rs) imm4 false) s) := rfl
  exact ⟨decodeOfEncodeIsIdentity (.ori rd rs imm4) rfl, _, hexec, readReg_commitAlu_dest rd _ s, commitAlu_c rd _ s,
    commitAlu_z rd _ s, commitAlu_pc_and_frame rd _ s⟩

end Sys2Proof.Machine

namespace Sys2Proof.Machine

/-! SUPPORT. The destructive extended ALU instructions (43_alu_extended.md): the values of the destination, the source and `C`
at the start of the step are the operands of the ALU (R83). -/

/-- Settles O14: the sum of the old destination, the source and the carry in, committed. -/
theorem adcResultAndFrame : Obligations.AdcResultAndFrame := by
  intro rd rs s
  have hexec : exec (.adc rd rs) s = .next (commitAlu rd (alu .add (readReg s rd) (readReg s rs) s.c) s) := rfl
  refine ⟨decodeOfEncodeIsIdentity (.adc rd rs) rfl, _, hexec, ?_, alu_c_add _ _ s.c, alu_z_add _ _ s.c,
    commitAlu_pc_and_frame rd _ s⟩
  rw [readReg_commitAlu_dest, apply_ite BitVec.toNat, alu_r_add]
  rfl

/-- Settles O15: the old destination less the source and the borrow in, committed. -/
theorem sbbResultAndFrame : Obligations.SbbResultAndFrame := by
  intro rd rs s
  have hexec : exec (.sbb rd rs) s = .next (commitAlu rd (alu .sub (readReg s rd) (readReg s rs) s.c) s) := rfl
  refine ⟨decodeOfEncodeIsIdentity (.sbb rd rs) rfl, _, hexec, ?_, alu_c_sub_eq_lt _ _ s.c, alu_z_sub _ _ s.c,
    commitAlu_pc_and_frame rd _ s⟩
  rw [readReg_commitAlu_dest, apply_ite BitVec.toNat, Nat.cast_ite, alu_r_sub]
  rfl

end Sys2Proof.Machine

namespace Sys2Proof.Machine

/-! SUPPORT. The load and the store (44_load_store.md): the address they share, and what each leaves alone. -/

/-- The address of the M format as numbers: the base pair, then the sum with the signed offset, which wraps (R120, R121). -/
theorem mFormat_address (s : State) (base : RegIdx) (off4 : Nibble) :
    (baseAddress s base).toNat = 16 * (readReg s base).toNat + (readReg s (base + 1)).toNat ∧
    ((effectiveAddress s base off4).toNat : Int) = ((baseAddress s base).toNat + off4.toInt) % 256 := by
  refine ⟨baseAddress_toNat s base, ?_⟩
  rw [effectiveAddress_toNat, sext4_eq_toInt]

/-- The destination after a load; a load to register 0 is discarded (R12, R122). -/
theorem exec_lw_readReg_dest {rs base : RegIdx} {off4 : Nibble} {s t : State} (h : exec (.lw rs base off4) s = .next t) :
    readReg t rs = if rs = 0 then 0 else memRead s (effectiveAddress s base off4) := by
  split
  · next hrs => rw [hrs, readReg_zero]
  · next hrs => exact exec_lw_readReg_self h hrs

/-- A load writes no register but its destination, the base pair included (R122). -/
theorem exec_lw_readReg_of_ne {rs base j : RegIdx} {off4 : Nibble} {s t : State}
    (h : exec (.lw rs base off4) s = .next t) (hj : j ≠ rs) : readReg t j = readReg s j := by
  cases h
  rw [readReg_advancePc, readReg_writeReg, if_neg fun hwritten => hj hwritten.1]

/-- What a load leaves alone besides the registers, and the `pc` it advances (R84, R122). -/
theorem exec_lw_pc_and_frame {rs base : RegIdx} {off4 : Nibble} {s t : State} (h : exec (.lw rs base off4) s = .next t) :
    t.pc = s.pc + 4 ∧ sameRegsExcept [rs] s t ∧ sameFlags s t ∧ sameDmem s t ∧ sameImem s t ∧ sameRun s t := by
  have hregs : sameRegsExcept [rs] s t := fun j hj => exec_lw_readReg_of_ne h (List.ne_of_not_mem_cons hj)
  have himem : t.imem = s.imem := exec_imem h
  cases h
  refine ⟨?_, hregs, ?_, fun a => ?_, fun a => by rw [himem], ?_⟩
  · rw [advancePc_pc, writeReg_pc, nextPc_eq]
  · simp [sameFlags]
  · rw [memRead_advancePc, memRead_writeReg]
  · simp [sameRun]

/-- What a store leaves alone besides the data space, and the `pc` it advances (R84, R123). -/
theorem exec_sw_pc_and_frame {rs base : RegIdx} {off4 : Nibble} {s t : State} (h : exec (.sw rs base off4) s = .next t) :
    t.pc = s.pc + 4 ∧ sameRegsExcept [] s t ∧ sameFlags s t ∧ sameImem s t ∧ sameRun s t := by
  have hregs : sameRegsExcept [] s t := fun j _ => exec_sw_readReg h j
  have himem : t.imem = s.imem := exec_imem h
  cases h
  refine ⟨?_, hregs, ?_, fun a => by rw [himem], ?_⟩
  · rw [advancePc_pc, memWrite_pc, nextPc_eq]
  · simp [sameFlags]
  · simp [sameRun]

/-- Settles O17: the address is formed from the registers of before, so the destination may be one of the base pair. -/
theorem loadResultAndFrame : Obligations.LoadResultAndFrame := by
  intro rs base off4 s
  obtain ⟨hbase, hea⟩ := mFormat_address s base off4
  obtain ⟨t, hload⟩ := exec_answers_next (.lw rs base off4) s
  exact ⟨decodeOfEncodeIsIdentity (.lw rs base off4) rfl, hbase, hea, t, hload, exec_lw_readReg_dest hload,
    exec_lw_pc_and_frame hload⟩

/-- Settles O18: the data space after the store, read at the stored cell and at any other. -/
theorem storeResultAndFrame : Obligations.StoreResultAndFrame := by
  intro rs base off4 s
  obtain ⟨hbase, hea⟩ := mFormat_address s base off4
  obtain ⟨t, hstore⟩ := exec_answers_next (.sw rs base off4) s
  refine ⟨decodeOfEncodeIsIdentity (.sw rs base off4) rfl, hbase, hea, t, hstore, ?_, fun a ha => ?_,
    exec_sw_pc_and_frame hstore⟩
  · rw [exec_sw_memRead hstore, if_pos rfl]
  · rw [exec_sw_memRead hstore, if_neg ha]

end Sys2Proof.Machine

namespace Sys2Proof.Machine

/-! SUPPORT. The conditional branches (45_branch.md): what a machine in which only `pc` moves keeps, and the answer all four
share, under any reading of the condition that names the same register values. -/

/-- A write to `pc` is seen nowhere else (R130). -/
theorem pcOnlyFrame_writePc (target : PcAddr) (s : State) : pcOnlyFrame s (writePc target s) :=
  ⟨fun j _ => readReg_writePc target s j, ⟨rfl, rfl⟩, fun a => memRead_writePc target s a, fun _ => rfl, rfl, rfl⟩

theorem pcOnlyFrame_branchIf (taken : Bool) (off8 : BitVec 8) (s : State) : pcOnlyFrame s (branchIf taken off8 s) := by
  rw [branchIf_spec]
  exact pcOnlyFrame_writePc _ s

/-- `signed4` reads a register as two's complement (R8, R95). -/
theorem signed4_eq_toInt (v : Nibble) : signed4 v = v.toInt := sext4_eq_toInt v

/-- The answer of an instruction that branches on `p`, told by a condition `q` that says the same (R130). -/
theorem branch_answer_and_frame {i : Instr} {p q : Prop} [Decidable p] [Decidable q] {off8 : BitVec 8} {s : State}
    (hexec : exec i s = .next (branchIf (decide p) off8 s)) (hcond : p ↔ q) :
    ∃ t, exec i s = .next t ∧
      (t.pc.toNat : Int) =
        (if decide q = true then ((s.pc.toNat : Int) + 4 * off8.toInt) % 4096 else ((s.pc.toNat : Int) + 4) % 4096) ∧
      pcOnlyFrame s t := by
  refine ⟨_, hexec, ?_, pcOnlyFrame_branchIf _ off8 s⟩
  rw [branchIf_pc_toNat]
  by_cases hp : p
  · simp [hp, hcond.mp hp]
  · simp [hp, mt hcond.mpr hp]

/-- Settles O21: the four differ in the condition alone, which the model reads off the nibble and the statement off its
value. -/
theorem branchResultsAndFrame : Obligations.BranchResultsAndFrame := by
  intro rs off8 s
  have hzero : readReg s rs = 0 ↔ (readReg s rs).toNat = 0 := BitVec.toNat_inj.symm
  have hsigned : signed4 (readReg s rs) = (readReg s rs).toInt := signed4_eq_toInt _
  refine ⟨decodeOfEncodeIsIdentity (.beqz rs off8) rfl, decodeOfEncodeIsIdentity (.bnez rs off8) rfl,
    decodeOfEncodeIsIdentity (.bltz rs off8) rfl, decodeOfEncodeIsIdentity (.bgez rs off8) rfl, ?_⟩
  simp only [List.forall_mem_cons]
  refine ⟨?beqz, ?bnez, ?bltz, ?bgez, List.forall_mem_nil _⟩
  case beqz => exact branch_answer_and_frame rfl hzero
  case bnez => exact branch_answer_and_frame rfl (not_congr hzero)
  case bltz => exact branch_answer_and_frame (p := signed4 (readReg s rs) < 0) rfl (by rw [hsigned])
  case bgez => exact branch_answer_and_frame (p := signed4 (readReg s rs) ≥ 0) rfl (by rw [hsigned])

end Sys2Proof.Machine

namespace Sys2Proof.Machine

/-! SUPPORT. The jumps (46_jump.md): the words of the J format by their opcode, and all that JAL does, read off the state it
answers. J and JR only move `pc`, and what that keeps is `pcOnlyFrame_writePc`. -/

/-- The opcodes of the two J-format words: they differ in their low bit, bit 12 of the word (R58, R143). -/
theorem encodeJump_eq_opcode_append (link : Bool) (target12 : BitVec 12) :
    encodeJump link target12 = (if link then 0xF#4 else 0xE#4) ++ target12 := by
  cases link <;> rfl

/-- The link triple as a number: the nibbles of an address, high first (R13). -/
theorem linkTriple_toNat (s : State) :
    (linkTriple s).toNat = 256 * (readReg s 13).toNat + 16 * (readReg s 14).toNat + (readReg s 15).toNat :=
  registerTriple_toNat s 13

/-- What is written to the link triple is read from it (R13, R141). -/
theorem linkTriple_writeLink (ret : PcAddr) (s : State) : linkTriple (writeLink ret s) = ret := by
  apply BitVec.eq_of_toNat_eq
  simp only [linkTriple_toNat, readReg_writeLink, Fin.reduceEq, ↓reduceIte, BitVec.extractLsb'_toNat]
  omega

/-- JAL's register writes stay within the link triple (R141). -/
theorem sameRegsExcept_writeLink (ret : PcAddr) (s : State) : sameRegsExcept [13, 14, 15] s (writeLink ret s) := by
  intro j hj
  simp only [List.mem_cons, List.not_mem_nil, or_false, not_or] at hj
  obtain ⟨h13, h14, h15⟩ := hj
  rw [readReg_writeLink, if_neg h13, if_neg h14, if_neg h15]

/-- Where a JAL goes, the return address it leaves, and what it leaves alone (R141). -/
theorem exec_jal_link_and_frame {link : Bool} {target12 : BitVec 12} {s t : State}
    (h : exec (.jal link target12) s = .next t) :
    t.pc = jalTarget target12 ∧ linkTriple t = s.pc + 4 ∧ sameRegsExcept [13, 14, 15] s t ∧ sameFlags s t ∧
      sameDmem s t ∧ sameImem s t ∧ sameRun s t := by
  cases h
  refine ⟨rfl, ?_, sameRegsExcept_writeLink _ s, ?_, fun a => ?_, fun a => ?_, ?_⟩
  · rw [← nextPc_eq]
    exact linkTriple_writeLink _ s
  · simp [sameFlags]
  · simp [memRead]
  · simp
  · simp [sameRun]

/-- Settles O22: the word and the answer of a jump that writes `pc` alone. -/
theorem jumpResultAndFrame : Obligations.JumpResultAndFrame := by
  intro target12 s
  exact ⟨decode_encodeJump false target12, _, rfl, rfl, pcOnlyFrame_writePc target12 s⟩

/-- Settles O23: the three registers are the nibbles of the one return address the triple reads as. -/
theorem jumpAndLinkResultAndFrame : Obligations.JumpAndLinkResultAndFrame := by
  intro target12 s
  obtain ⟨t, hcall⟩ := exec_answers_next (.jal true target12) s
  obtain ⟨hpc, hlink, hframe⟩ := exec_jal_link_and_frame hcall
  have hret : 256 * (readReg t 13).toNat + 16 * (readReg t 14).toNat + (readReg t 15).toNat = (s.pc.toNat + 4) % 4096 := by
    rw [← linkTriple_toNat, hlink, BitVec.toNat_add]
    rfl
  refine ⟨decode_encodeJump true target12, t, hcall, by omega, by omega, by omega, ?_, hframe⟩
  rw [hpc, jalTarget_toNat]

/-- Settles O24: `pc` from the register triple, which for register 13 is the link triple. -/
theorem jumpRegisterResultAndFrame : Obligations.JumpRegisterResultAndFrame := by
  intro ignored rs s
  refine ⟨decode_jr_word ignored rs, _, rfl, registerTriple_toNat s rs, ?_, pcOnlyFrame_writePc _ s⟩
  rintro rfl
  exact (linkTriple_eq s).symm

/-- Settles O25: the two words are the encodings of J and of JAL with one target. -/
theorem linkBitDecidesLinking : Obligations.LinkBitDecidesLinking := by
  intro target12 s
  have hj : encodeJump false target12 = 0xE#4 ++ target12 := encodeJump_eq_opcode_append false target12
  have hjal : encodeJump true target12 = 0xF#4 ++ target12 := encodeJump_eq_opcode_append true target12
  obtain ⟨-, -, htarget⟩ := extractFields_encodeJump false target12
  obtain ⟨-, -, htarget'⟩ := extractFields_encodeJump true target12
  obtain ⟨u, hcall⟩ := exec_answers_next (.jal true target12) s
  rw [← hj, ← hjal]
  refine ⟨?_, htarget.trans htarget'.symm, .j false target12, .jal true target12, _, u, decode_encodeJump false target12,
    decode_encodeJump true target12, rfl, hcall, rfl, pcOnlyFrame_writePc target12 s, exec_jal_link_and_frame hcall⟩
  rw [hj, hjal, BitVec.xor_append, BitVec.xor_self]
  rfl

/-- Settles O26: JR moves `pc` to the link triple JAL left and keeps everything else JAL left. -/
theorem callThenReturn : Obligations.CallThenReturn := by
  intro target12 s
  obtain ⟨t, hcall⟩ := exec_answers_next (.jal true target12) s
  obtain ⟨-, hlink, hregs, hflags, hdmem, -⟩ := exec_jal_link_and_frame hcall
  have hreturn : exec (.jr 13) t = .next (writePc (linkTriple t) t) := rfl
  exact ⟨t, _, hcall, hreturn, hlink, hlink, hregs, hflags, hdmem⟩

end Sys2Proof.Machine

namespace Sys2Proof.Machine

/-! SUPPORT. The system instruction (47_system.md): the result of the step that executes a legal word, and all that HALT
leaves alone. -/

/-- The step with its result on a legal word: no fault, and halted when the state it answers is (R80). -/
theorem engineStep_of_legal {s t : State} {i : Instr} (hrun : s.run = .running)
    (hdec : decode (iFetch s.imem s.pc) = .legal i) (hexec : exec i s = .next t) :
    engineStep s = .next (t, ⟨decide (t.run = .halted), none⟩) := by
  simp only [engineStep, hrun, hdec, hexec]

theorem executes_halt_iff (s : State) :
    executes s ["HALT"] ↔ s.run = .running ∧ decode (iFetch s.imem s.pc) = .legal .halt := by
  simp [executes, mnemonic_eq_halt_iff]

/-- HALT moves the run state and is seen nowhere else (R150). -/
theorem haltRun_frame (s : State) :
    sameRegsExcept [] s (haltRun s) ∧ sameFlags s (haltRun s) ∧ sameDmem s (haltRun s) ∧ sameImem s (haltRun s) :=
  ⟨fun j _ => readReg_haltRun s j, ⟨haltRun_c s, haltRun_z s⟩, memRead_haltRun s, fun _ => by rw [haltRun_imem]⟩

/-- Settles O32: HALT answers `haltRun s`, which is halted, so that a further step keeps it; the step that executes the HALT
reports that state. -/
theorem haltResultAndFrame : Obligations.HaltResultAndFrame := by
  refine ⟨decode_halt_word, fun s => ?_⟩
  have hexec : exec .halt s = .next (haltRun s) := rfl
  have hresult (h : executes s ["HALT"]) : engineStep s = .next (haltRun s, ⟨true, none⟩) := by
    obtain ⟨hrun, hdec⟩ := (executes_halt_iff s).mp h
    exact engineStep_of_legal hrun hdec hexec
  obtain ⟨hregs, hflags, hdmem, himem⟩ := haltRun_frame s
  exact ⟨haltRun s, hexec, haltRun_run s, haltRun_fault s, haltRun_pc s, hregs, hflags, hdmem, himem,
    step_of_halted (haltRun_run s), hresult, fun _ _ _ => rfl⟩

end Sys2Proof.Machine

namespace Sys2Proof.Machine

/-! SUPPORT. The illegal-instruction fault (60_exceptions.md): which words raise it, the result of the step that raises it,
and what it leaves alone. -/

/-- The illegal words by the nibble that holds the opcode and the one that holds `funct` (R66). -/
theorem isIllegal_iff_nibbles (w : Word16) :
    isIllegal w = true ↔ w.extractLsb' 12 4 = 0 ∧ ¬ (1 ≤ w.toNat % 16 ∧ w.toNat % 16 ≤ 4) := by
  obtain ⟨hop, -⟩ := fieldExtraction w
  have htop : w.extractLsb' 12 4 = 0 ↔ w.toNat / 4096 = 0 := by
    rw [← hop]
    exact BitVec.toNat_inj.symm
  rw [isIllegal_iff_toNat, htop]
  omega

/-- The step with its result on an illegal word (R80, R161). -/
theorem engineStep_of_meetsIllegal {s : State} (h : meetsIllegal s) :
    engineStep s = .next (raiseIllegal s, ⟨true, some .illegalInstruction⟩) := by
  obtain ⟨hrun, hill⟩ := h
  obtain ⟨w, hdec⟩ := (isIllegal_iff _).mp hill
  simp only [engineStep, hrun, hdec]

/-- The fault leaves `pc` and the instruction space alone, so the report shows the word that raised it (R19, R161). -/
theorem faultReport_raiseIllegal (s : State) : faultReport (raiseIllegal s) = some (s.pc, iFetch s.imem s.pc) := rfl

/-- Settles O33: the word is illegal, so the step answers `raiseIllegal s`; any other step is not that one case in which
`step_fault` lets the record change. -/
theorem illegalInstructionFault : Obligations.IllegalInstructionFault := by
  refine ⟨fun s hrun hop hfunct => ?_, fun s t hstep hother => ?_⟩
  · have hill : meetsIllegal s := ⟨hrun, (isIllegal_iff_nibbles _).mpr ⟨hop, hfunct⟩⟩
    exact ⟨raiseIllegal s, engineStep_of_meetsIllegal hill, step_of_meetsIllegal hill, raiseIllegal_run s,
      raiseIllegal_fault s, raiseIllegal_pc s, raiseIllegal_regs s, ⟨raiseIllegal_c s, raiseIllegal_z s⟩,
      raiseIllegal_dmem s, raiseIllegal_imem s, faultReport_raiseIllegal s⟩
  · rcases step_fault hstep with hkeep | ⟨⟨hrun, hill⟩, -⟩
    · exact hkeep
    · exact absurd ⟨hrun, (isIllegal_iff_nibbles _).mp hill⟩ hother

end Sys2Proof.Machine

namespace Sys2Proof.Machine

/-! SUPPORT. Launch and boundary (70_reset_and_hazards.md): the contents a launch may be given, the checks it makes, and the
data port of the block. -/

/-! ## The contents of a memory (R182) -/

theorem Memory.wf_mono {size size' : Nat} (hsize : size ≤ size') {m : Memory} (h : Memory.wf size m = true) :
    Memory.wf size' m = true := by
  obtain ⟨hsorted, hok⟩ := (Memory.wf_iff _ _).mp h
  refine (Memory.wf_iff _ _).mpr ⟨hsorted, fun e he => ?_⟩
  obtain ⟨haddr, hvalue⟩ := hok e he
  exact ⟨Nat.lt_of_lt_of_le haddr hsize, hvalue⟩

/-- Any content of the cells below a size is held by a canonical memory: the cells are written one after the other. -/
theorem exists_canonical (size : Nat) (content : Nat → Nibble) :
    ∃ m : Memory, Memory.wf size m = true ∧ ∀ a, a < size → readCell m a = content a := by
  induction size with
  | zero => exact ⟨[], Memory.wf_nil 0, fun a ha => absurd ha (Nat.not_lt_zero a)⟩
  | succ size ih =>
    obtain ⟨m, hwf, hread⟩ := ih
    refine ⟨writeCell m size (content size),
      Memory.wf_writeCell (Memory.wf_mono (Nat.le_succ size) hwf) (Nat.lt_succ_self size) _, fun a ha => ?_⟩
    rw [readCell_writeCell]
    split
    · next hlast => rw [hlast]
    · next hne => exact hread a (by omega)

/-- In a memory sorted by address a listed cell reads as its entry says: no earlier entry hides it. -/
theorem readCell_of_mem {m : Memory} (hsorted : m.Pairwise fun e f => e.1 < f.1) {e : Host.Cell} (he : e ∈ m) :
    readCell m e.1 = e.2.setWidth 4 := by
  induction m with
  | nil => cases he
  | cons f rest ih =>
    obtain ⟨hfirst, hrest⟩ := List.pairwise_cons.mp hsorted
    rcases List.mem_cons.mp he with rfl | he
    · exact if_pos rfl
    · exact (if_neg (Nat.ne_of_lt (hfirst e he))).trans (ih hrest he)

/-- A cell that reads as something else than an unlisted cell is listed. -/
theorem exists_mem_of_readCell_ne {m : Memory} {a : Nat} (h : readCell m a ≠ Config.unlistedCell) :
    ∃ e ∈ m, e.1 = a := by
  induction m with
  | nil => exact absurd rfl h
  | cons f rest ih =>
    by_cases hf : f.1 = a
    · exact ⟨f, List.mem_cons_self, hf⟩
    · have hrest : readCell (f :: rest) a = readCell rest a := if_neg hf
      obtain ⟨e, he, hea⟩ := ih (hrest ▸ h)
      exact ⟨e, List.mem_cons_of_mem f he, hea⟩

/-- The entries of a canonical memory can be told from what its cells read as. -/
theorem mem_iff_readCell {size : Nat} {m : Memory} (h : Memory.wf size m = true) (e : Host.Cell) :
    e ∈ m ↔ cellOk size e ∧ readCell m e.1 = e.2.setWidth 4 := by
  obtain ⟨hsorted, hok⟩ := (Memory.wf_iff _ _).mp h
  refine ⟨fun he => ⟨hok e he, readCell_of_mem hsorted he⟩, fun ⟨⟨_, hnibble, hlisted⟩, hread⟩ => ?_⟩
  obtain ⟨f, hf, haddr⟩ := exists_mem_of_readCell_ne (hread ▸ hlisted)
  obtain ⟨-, hnibble', -⟩ := hok f hf
  have hsame : f.2.setWidth 4 = e.2.setWidth 4 := by rw [← readCell_of_mem hsorted hf, haddr, hread]
  have hvalue : f.2 = e.2 := by bv_omega
  rwa [← Prod.ext haddr hvalue]

/-- Two canonical memories that read the same below their size are the same list. -/
theorem Memory.eq_of_readCell_eq {size : Nat} {m m' : Memory} (h : Memory.wf size m = true) (h' : Memory.wf size m' = true)
    (hread : ∀ a, a < size → readCell m' a = readCell m a) : m' = m := by
  obtain ⟨hsorted, -⟩ := (Memory.wf_iff _ _).mp h
  obtain ⟨hsorted', -⟩ := (Memory.wf_iff _ _).mp h'
  refine hsorted'.eq_of_mem_iff hsorted fun e => ?_
  rw [mem_iff_readCell h', mem_iff_readCell h]
  exact and_congr_right fun ⟨haddr, _⟩ => by rw [hread e.1 haddr]

/-- Settles O43. -/
theorem everyContentHasOneCanonicalForm : Obligations.EveryContentHasOneCanonicalForm := by
  intro size content
  obtain ⟨m, hwf, hread⟩ := exists_canonical size content
  exact ⟨m, ⟨hwf, hread⟩, fun m' ⟨hwf', hread'⟩ =>
    Memory.eq_of_readCell_eq hwf hwf' fun a ha => (hread' a ha).trans (hread a ha).symm⟩

/-! ## The launch (R180, R183) -/

theorem launchInRange_iff (image : List Word16) (base entry : Nat) :
    launchInRange image base entry = true ↔ entry < 4096 ∧ base + 4 * image.length ≤ 4096 := by
  rw [launchInRange, Bool.and_eq_true, decide_eq_true_iff, decide_eq_true_iff]
  rfl

/-- A launch with canonical memories establishes the invariant, whatever the state before it (R12, R24). -/
theorem launch_inv {imemInit dmemInit : Memory} (himem : Memory.wf Config.imemSize imemInit = true)
    (hdmem : Memory.wf Config.dmemSize dmemInit = true) (entry : PcAddr) (s : State) :
    (launch imemInit dmemInit entry s).Inv := by
  obtain ⟨hregs, -⟩ := resetGivesTheLaunchState imemInit dmemInit entry s
  exact ⟨hregs 0, hdmem, himem, fun _ => rfl⟩

theorem readReg_launch (imemInit dmemInit : Memory) (entry : PcAddr) (s : State) (i : RegIdx) :
    readReg (launch imemInit dmemInit entry s) i = 0 := by
  obtain ⟨hregs, -⟩ := resetGivesTheLaunchState imemInit dmemInit entry s
  rw [readReg, hregs, ite_self]

theorem launchImage_of_inRange {image : List Word16} {base entry : Nat} {rest dmemInit : Memory}
    (hrange : launchInRange image base entry = true) (hrest : Memory.wf Config.imemSize rest = true)
    (hdmem : Memory.wf Config.dmemSize dmemInit = true) (s : State) :
    launchImage image base entry rest dmemInit s =
      .next (launch (placeImage image (BitVec.ofNat 12 base) rest) dmemInit (BitVec.ofNat 12 entry) s) := by
  simp only [launchImage, hrange, hrest, hdmem, Bool.and_self, if_true]

theorem launchImage_of_not_inRange {image : List Word16} {base entry : Nat}
    (hrange : ¬ launchInRange image base entry = true) (rest dmemInit : Memory) (s : State) :
    launchImage image base entry rest dmemInit s = .refused .preconditionViolation := by
  simp only [launchImage, hrange, Bool.false_and, Bool.false_eq_true, if_false]

/-- Settles O47: in range the launch is reset over the placed image, which is canonical when the other cells are. -/
theorem launchIsCheckedThenExact : Obligations.LaunchIsCheckedThenExact := by
  intro image base entry rest dmemInit s
  refine ⟨fun hentry hfit hrest hdmem => ?_, fun hout => ?_⟩
  · have hrange := (launchInRange_iff image base entry).mpr ⟨hentry, hfit⟩
    have himem := wf_placeImage image (BitVec.ofNat 12 base) hrest
    have hpc : (BitVec.ofNat 12 entry).toNat = entry := Nat.mod_eq_of_lt hentry
    exact ⟨_, launchImage_of_inRange hrange hrest hdmem s, launch_inv himem hdmem _ s, rfl, rfl, hpc, rfl, rfl,
      readReg_launch _ _ _ s, rfl, rfl⟩
  · have hrange : ¬ launchInRange image base entry = true := by
      rw [launchInRange_iff]
      omega
    exact launchImage_of_not_inRange hrange rest dmemInit s

/-! ## The data port (R187) -/

/-- The store data is driven by SW alone. -/
theorem storeData_controls_isSome_iff (s : State) (d : Decoded) :
    (storeData s (controls d).dmem).isSome = true ↔ ∃ i, d = .legal i ∧ (tableRow i).mnemonic ∈ ["SW"] := by
  cases d with
  | illegal => simp [controls, storeData]
  | legal i =>
    cases i with
    | sw => simp [controls, storeData, tableRow]
    | add | sub | and | or | xor | slt | ori | adc | sbb | lw | beqz | bnez | bltz | bgez | j | jal | jr | halt =>
      simp [controls, aluControls, pcControls, storeData, tableRow]

/-- The address is driven by LW and SW alone. -/
theorem dmemAddress_controls_ne_none_iff (s : State) (d : Decoded) :
    dmemAddress s (controls d).dmem ≠ none ↔ ∃ i, d = .legal i ∧ (tableRow i).mnemonic ∈ ["LW", "SW"] := by
  cases d with
  | illegal => simp [controls, dmemAddress]
  | legal i =>
    cases i with
    | lw | sw => simp [controls, dmemAddress, tableRow]
    | add | sub | and | or | xor | slt | ori | adc | sbb | beqz | bnez | bltz | bgez | j | jal | jr | halt =>
      simp [controls, aluControls, pcControls, dmemAddress, tableRow]

theorem activeDmem_of_not_starts {i : PortsIn} {s : State} (h : ¬ startsInstruction i s = true) :
    activeDmem i s = .none := if_neg h

/-- When a data port is driven, `Driven` being the port's condition on the `DMEM` controls: an instruction starts, and it is
one of those whose controls drive the port. Where none starts the controls are idle. -/
theorem activeDmem_iff_of_answer {i : PortsIn} {s : State} (hanswer : memoriesAnswer i s = true) {ms : List String}
    {Driven : DmemControl → Prop} (hidle : ¬ Driven .none)
    (hdriven : ∀ d, Driven (controls d).dmem ↔ ∃ j, d = .legal j ∧ (tableRow j).mnemonic ∈ ms) :
    Driven (activeDmem i s) ↔ i.rst = false ∧ i.stepEn = true ∧ executes s ms := by
  obtain ⟨hword, -⟩ := (memoriesAnswer_iff i s).mp hanswer
  have hstarts := startsInstruction_iff i s
  by_cases hstart : startsInstruction i s = true
  · obtain ⟨hrst, hen, hrun⟩ := hstarts.mp hstart
    rw [activeDmem_of_starts hstart, hdriven, hword]
    simp [hrst, hen, executes, hrun]
  · rw [activeDmem_of_not_starts hstart]
    exact iff_of_false hidle fun ⟨hrst, hen, hrun, _⟩ => hstart (hstarts.mpr ⟨hrst, hen, hrun⟩)

/-- An address that is driven is the one of the instruction at `pc`. -/
theorem activeDmem_of_dmemAddr_ne_none {i : PortsIn} {s : State} (hanswer : memoriesAnswer i s = true)
    (h : (portsOut i s).dmemAddr ≠ none) : activeDmem i s = (controls (decode (iFetch s.imem s.pc))).dmem := by
  obtain ⟨hword, -⟩ := (memoriesAnswer_iff i s).mp hanswer
  have hstart : startsInstruction i s = true := by
    by_contra hnot
    exact h (congrArg (dmemAddress s) (activeDmem_of_not_starts hnot))
  rw [activeDmem_of_starts hstart, hword]

/-- A high write enable comes with an address and a value. -/
theorem portsOut_of_dmemWe {i : PortsIn} {s : State} (h : (portsOut i s).dmemWe = true) :
    ∃ a v, (portsOut i s).dmemAddr = some a ∧ (portsOut i s).dmemWdata = some v := by
  simp only [portsOut] at h ⊢
  cases hactive : activeDmem i s with
  | none | read => simp [hactive, storeData] at h
  | write base off4 rs => exact ⟨_, _, rfl, rfl⟩

theorem storeFromPorts_of_dmemWe {o : PortsOut} {a : DataAddr} {v : Nibble} (hwe : o.dmemWe = true)
    (haddr : o.dmemAddr = some a) (hdata : o.dmemWdata = some v) (s : State) : storeFromPorts o s = memWrite a v s := by
  simp only [storeFromPorts, hwe, haddr, hdata]

theorem storeFromPorts_of_not_dmemWe {o : PortsOut} (hwe : o.dmemWe = false) (s : State) : storeFromPorts o s = s := by
  simp only [storeFromPorts, hwe]

/-- The data memory's answer to the outputs depends on what it holds and on nothing else of the state. -/
theorem memRead_storeFromPorts_congr {s t : State} (h : t.dmem = s.dmem) (o : PortsOut) (a : DataAddr) :
    memRead (storeFromPorts o t) a = memRead (storeFromPorts o s) a := by
  unfold storeFromPorts
  split <;> simp only [memRead, memWrite_dmem, h]

theorem dmemWe_of_not_starts {i : PortsIn} {s : State} (h : ¬ startsInstruction i s = true) :
    (portsOut i s).dmemWe = false :=
  congrArg (fun k => (storeData s k).isSome) (activeDmem_of_not_starts h)

/-- At every boundary the data space changes only by the store the outputs ask for, with or without a reset (R24, R187). -/
theorem memRead_boundary (i : PortsIn) (s : State) (a : DataAddr) :
    memRead (boundary i s) a = memRead (storeFromPorts (portsOut i s) s) a := by
  by_cases hstart : startsInstruction i s = true
  · obtain ⟨hrst, -⟩ := (startsInstruction_iff i s).mp hstart
    simp only [boundary, hrst, hstart, Bool.false_eq_true, if_false, if_true]
    exact memRead_storeFromPorts_congr (coreUnder_dmem _ _ s) _ a
  · rw [storeFromPorts_of_not_dmemWe (dmemWe_of_not_starts hstart)]
    cases hrst : i.rst with
    | true => simp only [boundary, hrst, if_true, memRead_resetCore]
    | false => rw [boundary_of_not_starts hrst (Bool.eq_false_of_not_eq_true hstart)]

/-- Settles O49: the data port is driven by the instruction at `pc`, when it starts, and the boundary makes the store that
the port asks for. -/
theorem dataPortShowsTheStore : Obligations.DataPortShowsTheStore := by
  intro i s hanswer
  have hwe := activeDmem_iff_of_answer hanswer (Driven := fun k => (storeData s k).isSome = true) (by simp [storeData])
    (storeData_controls_isSome_iff s)
  have haddr := activeDmem_iff_of_answer hanswer (Driven := fun k => dmemAddress s k ≠ none) (by simp [dmemAddress])
    (dmemAddress_controls_ne_none_iff s)
  refine ⟨rfl, decide_eq_true_iff, decide_eq_true_iff, fun r => Vector.getElem_ofFn r.isLt, rfl, rfl, rfl, hwe, haddr,
    fun rs base off4 hdriven => ?_, fun hhigh => ?_, fun hlow a => ?_⟩
  · have hactive := activeDmem_of_dmemAddr_ne_none hanswer hdriven
    refine ⟨fun hdec => ?_, fun hdec => ?_⟩
    · rw [hdec] at hactive
      exact congrArg (dmemAddress s) hactive
    · rw [hdec] at hactive
      exact ⟨congrArg (dmemAddress s) hactive, congrArg (storeData s) hactive⟩
  · obtain ⟨a, v, ha, hv⟩ := portsOut_of_dmemWe hhigh
    have hread (b : DataAddr) : memRead (boundary i s) b = if b = a then v else memRead s b := by
      rw [memRead_boundary, storeFromPorts_of_dmemWe hhigh ha hv, memRead_memWrite]
    exact ⟨a, v, ha, hv, (hread a).trans (if_pos rfl), fun b hb => (hread b).trans (if_neg hb)⟩
  · rw [memRead_boundary, storeFromPorts_of_not_dmemWe hlow]

end Sys2Proof.Machine
